-- ==== Sys2Proof/Word.lean ====
section
/-! DEFINITION. The words of the mini-aes CORE: every value is an unsigned bit vector handled whole
(00_scope.md R9, R11; 20_memory.md R43). -/

namespace Sys2Proof

/-- R29: a FieldElement of GF(2³), bit `i` the coefficient of `x^i` (R41). CELL_BITS = 3 (R9). -/
abbrev FieldElement := BitVec 3

/-- R30: a Block, a 2×2 matrix of FieldElements packed row-major into 12 bits (R40). BLOCK_BITS = 12. -/
abbrev Block := BitVec 12

/-- R31: a Key, a Block-shaped 12-bit value. KEY_BITS = 12. -/
abbrev Key := BitVec 12

/-- R60: a command is one 28-bit word `{op[27:24], A[23:12], B[11:0]}`. -/
abbrev Command := BitVec 28

end Sys2Proof
end

