-- ==== Sys2Proof/Config.lean ====
section
/-! DEFINITION. What the spec leaves open for an implementation to fix (00_scope.md R10): named
parameters with no value here. "None of them changes any computed value": no rule reads LATENCY,
BUS_BINDING or CORE_BASE, and N_REQ only bounds the numbers of the hosts. -/

namespace Sys2Proof.Config

/-- R237: the time from command to response of an opcode. No rule depends on it (log entry 11). -/
opaque latency : BitVec 4 → Nat

/-- R48: where a platform places the CORE. No rule reads it (log entry 11). -/
opaque coreBase : Nat

/-- R43: how a command word maps onto the bytes of a platform bus. No rule depends on it (log entry 11). -/
opaque busBindingCommand : Command → List (BitVec 8)

/-- R43: how a 15-bit response maps onto the bytes of a platform bus. No rule depends on it (log entry 11). -/
opaque busBindingResponse : BitVec 15 → List (BitVec 8)

/-- The requesters beyond the first; open (log entry 10). -/
opaque extraRequesters : Nat

/-- R10, R215: N_REQ, the number of requesters that share the CORE, at least 1 (92_eei_decisions.md D16). -/
def requesters : Nat := extraRequesters + 1

end Sys2Proof.Config
end

