-- ==== Sys2Proof/Machine/Constants.lean ====
section
/-! DEFINITION. The read-only stored items of the CORE (10_state.md R26 to R28) and the values they hold
from power-up (R33). -/

namespace Sys2Proof.Machine

/-- R27: a 2×2 matrix of FieldElements `[[m00,m01],[m10,m11]]`. -/
structure Mat2 where
  m00 : FieldElement
  m01 : FieldElement
  m10 : FieldElement
  m11 : FieldElement
deriving DecidableEq, Repr

/-- R21: the only stored items of the CORE. -/
structure Rom where
  /-- R26: the S-box table, 8 entries of 3 bits, indexed by a FieldElement. -/
  sbox : Vector FieldElement 8
  /-- R27: the forward mix matrix M_F. -/
  mF : Mat2
  /-- R27: the inverse mix matrix M_I. -/
  mI : Mat2
  /-- R28: the reduction polynomial P, bit `i` the coefficient of `x^i`. -/
  p : BitVec 4
deriving DecidableEq, Repr

/-- R28: `p(x) = x³+x+1`. -/
def polynomial : BitVec 4 := 0b1011

/-- R120: the SBOX table contents. -/
def sboxTable : Vector FieldElement 8 := #v[0, 1, 5, 6, 7, 2, 3, 4]

/-- R140: `M_F = [[1,2],[2,1]]`. -/
def forwardMatrix : Mat2 := ⟨1, 2, 2, 1⟩

/-- R140: `M_I = [[2,4],[4,2]]`, the literal the source calls authoritative. -/
def inverseMatrix : Mat2 := ⟨2, 4, 4, 2⟩

/-- R33: what the stored items hold, before and after any reset. -/
def romConstants : Rom := ⟨sboxTable, forwardMatrix, inverseMatrix, polynomial⟩

end Sys2Proof.Machine
end

