-- ==== Sys2Proof/Syntax.lean ====
section
/-! DEFINITION. The abstract syntax of the eleven commands (30_encoding.md R69, spec/opcode_table.json):
one constructor per row. Operands are bit vectors of the width the spec gives them (R66, R67), so that
every term is a valid operation: "every 12-bit value is a valid block and a valid key". -/

namespace Sys2Proof

/-- R69: the operations of the opcode map. -/
inductive Instr where
  /-- 0x0, format FF2: GF(2³) addition (R105). -/
  | gfadd (fa fb : FieldElement)
  /-- 0x1, format FF2: GF(2³) multiplication (R106). -/
  | gfmul (fa fb : FieldElement)
  /-- 0x2, format FF1: multiplicative inverse, the SBox cell lookup (R107). -/
  | gfinv (fa : FieldElement)
  /-- 0x3, format FB1: substitute every cell (R121). -/
  | sub (wa : Block)
  /-- 0x4, format FB1: forward row shift (R130). -/
  | shiftf (wa : Block)
  /-- 0x5, format FB1: inverse row shift (R131). -/
  | shifti (wa : Block)
  /-- 0x6, format FB1: forward mix (R142). -/
  | mixf (wa : Block)
  /-- 0x7, format FB1: inverse mix (R143). -/
  | mixi (wa : Block)
  /-- 0x8, format FB2: add the key (R150). -/
  | keymix (wa : Block) (kb : Key)
  /-- 0x9, format FB2: encrypt one block (R160). -/
  | enc (wa : Block) (kb : Key)
  /-- 0xA, format FB2: decrypt one block (R161). -/
  | dec (wa : Block) (kb : Key)
deriving DecidableEq, Repr

/-- R62 to R65: the four command formats. -/
inductive Format where
  /-- R62: two field operands. -/
  | ff2
  /-- R63: one field operand. -/
  | ff1
  /-- R64: one block operand. -/
  | fb1
  /-- R65: a block and a key. -/
  | fb2
deriving DecidableEq, Repr

/-- R200: the error kinds of a response, in the table's order. The first two are raised by the
entries `encryptBlock` and `decryptBlock` only, the last two by the decoder. -/
inductive ErrorKind where
  /-- R203: "key value requires more than 12 bits". -/
  | invalidKeyLength
  /-- R204: "block value requires more than 12 bits (i.e., > 4095)". -/
  | invalidBlockValue
  /-- R201: `op` is 0xB to 0xF. -/
  | reservedOpcode
  /-- R202: a reserved operand bit is 1. -/
  | reservedOperandBits
deriving DecidableEq, Repr

end Sys2Proof
end

