-- ==== Sys2Proof/Machine/State.lean ====
section
/-! DEFINITION. The state of the CORE and of its command port. The CORE has no register, flag, program
counter, mode or memory (10_state.md R22 to R25; 20_memory.md R44); it stores constants only (R21). The
rest of the state is the port's: what the hosts have issued, what the CORE has sampled, what it has
answered (70_reset_and_hazards.md R230, R234). -/

namespace Sys2Proof.Machine

/-! ## What a host presents -/

/-- R74: an operand a host writes in a command: a literal, or `rN`, the result word of its `N`-th
response, counted from 1 (log entry 7). "This is host sequencing, not a CORE register." -/
inductive Operand (α : Type) where
  | lit (x : α)
  | result (n : Nat)
deriving DecidableEq, Repr

/-- What a host issues: a command at the 28-bit port (R60), or a call of one of the two entries over
naturals (R164, R165). -/
inductive Call where
  | command (op : BitVec 4) (a b : Operand (BitVec 12))
  | encryptBlock (block key : Operand Nat)
  | decryptBlock (block key : Operand Nat)
deriving DecidableEq, Repr

/-- A call and the number of the host that issues it (R20, R215). -/
structure Request where
  host : Nat
  call : Call
deriving DecidableEq, Repr

/-- What reaches the CORE from outside, one event a step. -/
inductive Event where
  /-- One host issues one request. -/
  | request (q : Request)
  /-- R231: reset is asserted while the listed requests are in progress (none, if the list is empty). -/
  | reset (inProgress : List Request)
deriving DecidableEq, Repr

/-! ## What the CORE samples and answers -/

/-- R47: what the CORE samples, as one indivisible transaction: the command word, or the two
naturals of an entry. -/
inductive Transaction where
  | command (cmd : Command)
  | encryptBlock (block key : Nat)
  | decryptBlock (block key : Nat)
deriving DecidableEq, Repr

/-- A sampled transaction and the host it came from. -/
structure Accepted where
  host : Nat
  transaction : Transaction
deriving DecidableEq, Repr

/-- R61, R206: a response carries a result word exactly when its status is OK; an error response has
none, so none can be read from it. -/
inductive Response where
  /-- Status OK, with the result R. -/
  | done (r : Block)
  /-- A status other than OK, with no result. -/
  | error (e : ErrorKind)
deriving DecidableEq, Repr

/-! ## The state -/

/-- Everything the spec gives the machine, as plain data. -/
structure State where
  /-- R21, R26 to R28: the stored constants. No command writes them. -/
  rom : Rom
  /-- R234: what the hosts have still to present, in the order it reaches the CORE; between hosts that
  order is arbitrary (R50). -/
  pending : List Event
  /-- R47, R50: what the CORE has sampled, oldest first. -/
  accepted : List Accepted
  /-- R61, R230: the response history, oldest first, one response for each sampled transaction. -/
  responses : List Response
deriving DecidableEq, Repr

/-- R33, R230: the constants hold their values and the response history is empty. Nothing is pending
and nothing has been sampled (log entries 2 and 6). -/
def State.reset : State where
  rom := romConstants
  pending := []
  accepted := []
  responses := []

/-- Why a step can stop. No command of the CORE stops it: an error of a command is a response (R206).
Both reasons are a HOST's use of a value that does not exist. -/
inductive Fault where
  /-- Raised when a host names `rN` and that response is an error, which "carries no result word" (R206;
  93_implementation_defined.md §1: treatment "fault"). Safe: no number is read. -/
  | noResultWord
  /-- Raised when a host names `rN` and has no such response, not yet (R235) or never because a reset lost
  it (R231; 93_implementation_defined.md §1: treatment "stuck"). Safe: the run stops. -/
  | responseNotArrived
deriving DecidableEq, Repr

/-- Why an instruction has no meaning. -/
inductive Refusal where
  /-- Would be raised by an arm of `exec` for an instruction without a meaning; every instruction has
  one, so nothing raises it. Safe. -/
  | notModelled (mnemonic : String)
deriving DecidableEq, Repr

end Sys2Proof.Machine
end

