-- ==== Sys2Proof/Machine/Flags.lean ====
section
/-! DEFINITION. The CORE has no flags: "No operation sets a carry, zero, overflow or any other sticky bit.
The only per-command indication is the response status S" (10_state.md R24). This file is that indication. -/

namespace Sys2Proof.Machine

/-- R200: the names a status can have. The codes 5 to 7 are never produced and have no name. -/
inductive Status where
  | ok
  | error (e : ErrorKind)
deriving DecidableEq, Repr

/-- R200: the numeric value of a status. -/
def statusCode : Status → BitVec 3
  | .ok => 0
  | .error .invalidKeyLength => 1
  | .error .invalidBlockValue => 2
  | .error .reservedOpcode => 3
  | .error .reservedOperandBits => 4

/-- R61: the status S of a response. -/
def Response.status : Response → Status
  | .done _ => .ok
  | .error e => .error e

/-- R61: the port `status[2:0]`. -/
def Response.statusBits (r : Response) : BitVec 3 := statusCode r.status

/-- R61: the port `r[11:0]`, which "has a value only when S = OK". -/
def Response.result? : Response → Option Block
  | .done r => some r
  | .error _ => none

/-- R206: whether a response is an error. -/
def Response.isError : Response → Bool
  | .done _ => false
  | .error _ => true

end Sys2Proof.Machine
end

