-- ==== Sys2Proof/WellFormed.lean ====
section
/-! DEFINITION. What a host has to keep when it presents work to the CORE (70_reset_and_hazards.md R233).
A term of `Instr` needs no check: its operands have the widths the spec gives. What can be ill-formed
is a 28-bit word (a reserved opcode, a reserved operand bit) and the two naturals of an entry call. -/

namespace Sys2Proof

/-- One row of spec/opcode_table.json: the bits a word of the row must have (`pattern`, the table's
"match") at the places set in `mask`. -/
structure OpcodeRow where
  mnemonic : String
  format : Format
  pattern : Command
  mask : Command
deriving DecidableEq, Repr

/-- spec/opcode_table.json, row by row (R69). -/
def opcodeTable : List OpcodeRow :=
  [⟨"GFADD", .ff2, 0x0000000#28, 0xFFF8FF8#28⟩,
   ⟨"GFMUL", .ff2, 0x1000000#28, 0xFFF8FF8#28⟩,
   ⟨"GFINV", .ff1, 0x2000000#28, 0xFFF8FFF#28⟩,
   ⟨"SUB", .fb1, 0x3000000#28, 0xF000FFF#28⟩,
   ⟨"SHIFTF", .fb1, 0x4000000#28, 0xF000FFF#28⟩,
   ⟨"SHIFTI", .fb1, 0x5000000#28, 0xF000FFF#28⟩,
   ⟨"MIXF", .fb1, 0x6000000#28, 0xF000FFF#28⟩,
   ⟨"MIXI", .fb1, 0x7000000#28, 0xF000FFF#28⟩,
   ⟨"KEYMIX", .fb2, 0x8000000#28, 0xF000000#28⟩,
   ⟨"ENC", .fb2, 0x9000000#28, 0xF000000#28⟩,
   ⟨"DEC", .fb2, 0xA000000#28, 0xF000000#28⟩]

/-- R70: a word belongs to a row exactly when `(cmd & mask) = match`. -/
def OpcodeRow.holdsWord (row : OpcodeRow) (cmd : Command) : Bool :=
  cmd &&& row.mask == row.pattern

/-- R70, R233: a word is a valid command exactly when it matches a row of the table: its opcode is
not reserved and its reserved operand bits are zero. -/
def wellFormedCommand (cmd : Command) : Bool :=
  opcodeTable.any (fun row => row.holdsWord cmd)

/-- R233: at the natural-number entries both inputs stay in [0, 4095]. -/
def wellFormedEntry (block key : Nat) : Bool :=
  decide (block ≤ 4095) && decide (key ≤ 4095)

end Sys2Proof
end

