-- ==== Sys2Proof/Decode.lean ====
section
/-! DEFINITION. The decoder (30_encoding.md R70), total on all 2^28 command words and refusing by
name, and after it the encoder, written from the same formats (R60 to R67). -/

namespace Sys2Proof

/-! ## The fields of a command word (R60) -/

/-- R60: the opcode, bits 27:24. -/
def opField (cmd : Command) : BitVec 4 := cmd.extractLsb' 24 4

/-- R60: the first operand field A, bits 23:12. -/
def aField (cmd : Command) : BitVec 12 := cmd.extractLsb' 12 12

/-- R60: the second operand field B, bits 11:0. -/
def bField (cmd : Command) : BitVec 12 := cmd.extractLsb' 0 12

/-- R66: a field operand is the low three bits of its operand field, used without extension. -/
def fieldOperand (x : BitVec 12) : FieldElement := x.extractLsb' 0 3

/-- R66: the bits above a field operand, which are reserved. -/
def reservedHigh (x : BitVec 12) : BitVec 9 := x.extractLsb' 3 9

/-! ## Decoding, format by format (R62 to R65, R70) -/

/-- R62, R66: two field operands; A[11:3] and B[11:3] must be zero. -/
def decodeFF2 (make : FieldElement → FieldElement → Instr) (a b : BitVec 12) : Except ErrorKind Instr :=
  if reservedHigh a = 0 ∧ reservedHigh b = 0 then .ok (make (fieldOperand a) (fieldOperand b))
  else .error .reservedOperandBits

/-- R63, R66: one field operand; A[11:3] and all of B must be zero. -/
def decodeFF1 (make : FieldElement → Instr) (a b : BitVec 12) : Except ErrorKind Instr :=
  if reservedHigh a = 0 ∧ b = 0 then .ok (make (fieldOperand a)) else .error .reservedOperandBits

/-- R64, R67: one block operand; all of B must be zero. -/
def decodeFB1 (make : Block → Instr) (a b : BitVec 12) : Except ErrorKind Instr :=
  if b = 0 then .ok (make a) else .error .reservedOperandBits

/-- R65: a block and a key; no reserved bits. -/
def decodeFB2 (make : Block → Key → Instr) (a b : BitVec 12) : Except ErrorKind Instr :=
  .ok (make a b)

/-- R69, R70: the opcode selects the format and the operation; 0xB to 0xF are reserved, whatever
their operand fields hold (R71). -/
def decodeFields (op : BitVec 4) (a b : BitVec 12) : Except ErrorKind Instr :=
  match op.toNat with
  | 0x0 => decodeFF2 .gfadd a b
  | 0x1 => decodeFF2 .gfmul a b
  | 0x2 => decodeFF1 .gfinv a b
  | 0x3 => decodeFB1 .sub a b
  | 0x4 => decodeFB1 .shiftf a b
  | 0x5 => decodeFB1 .shifti a b
  | 0x6 => decodeFB1 .mixf a b
  | 0x7 => decodeFB1 .mixi a b
  | 0x8 => decodeFB2 .keymix a b
  | 0x9 => decodeFB2 .enc a b
  | 0xA => decodeFB2 .dec a b
  | _ => .error .reservedOpcode

/-- R70: the decode procedure on a whole command word. -/
def decode (cmd : Command) : Except ErrorKind Instr :=
  decodeFields (opField cmd) (aField cmd) (bField cmd)

/-! ## Encoding -/

/-- R60: `cmd = {op, A, B}`. -/
def commandWord (op : BitVec 4) (a b : BitVec 12) : Command := op ++ a ++ b

/-- R62, R63: a field operand in its operand field, the reserved bits above it zero. -/
def fieldWord (f : FieldElement) : BitVec 12 := 0#9 ++ f

/-- R69: the opcode of an operation. -/
def opcodeOf : Instr → BitVec 4
  | .gfadd _ _ => 0x0
  | .gfmul _ _ => 0x1
  | .gfinv _ => 0x2
  | .sub _ => 0x3
  | .shiftf _ => 0x4
  | .shifti _ => 0x5
  | .mixf _ => 0x6
  | .mixi _ => 0x7
  | .keymix _ _ => 0x8
  | .enc _ _ => 0x9
  | .dec _ _ => 0xA

/-- R62 to R65: the operand fields A and B of an operation. -/
def operandFieldsOf : Instr → BitVec 12 × BitVec 12
  | .gfadd fa fb | .gfmul fa fb => (fieldWord fa, fieldWord fb)
  | .gfinv fa => (fieldWord fa, 0)
  | .sub wa | .shiftf wa | .shifti wa | .mixf wa | .mixi wa => (wa, 0)
  | .keymix wa kb | .enc wa kb | .dec wa kb => (wa, kb)

/-- The command word of an operation (R60 to R69). -/
def encode (i : Instr) : Command :=
  commandWord (opcodeOf i) (operandFieldsOf i).1 (operandFieldsOf i).2

/-- The instruction the decoder reads from the low `nbits` bits of `w`, numbered as the opcode table
numbers them. A command has 28 bits (R73): a number with a bit above them is no command (log entry 12). -/
def decodeTableWord (nbits w : Nat) : Option Instr :=
  let v := w % 2 ^ nbits
  if v < 2 ^ 28 then
    match decode (BitVec.ofNat 28 v) with
    | .ok i => some i
    | .error _ => none
  else none

end Sys2Proof
end

