-- ==== Sys2Proof/Machine/Operands.lean ====
section
/-! DEFINITION. The operand and result forms: cells of a 12-bit word (20_memory.md R40, R42), a field result
in the result word (30_encoding.md R68), and the operands a host writes (R74). -/

namespace Sys2Proof.Machine

/-! ## Cells and blocks -/

/-- R40: `cell(w, r, c) = w[11 - 3*(2*r + c) : 9 - 3*(2*r + c)]`, for a block or a key (R42). -/
def cell (w : Block) (r c : Fin 2) : FieldElement :=
  w.extractLsb' (9 - 3 * (2 * r.val + c.val)) 3

/-- R40: `pack(c00, c01, c10, c11) = {c00, c01, c10, c11}`, c00 in w[11:9]. -/
def pack (c00 c01 c10 c11 : FieldElement) : Block := c00 ++ c01 ++ c10 ++ c11

/-- Apply a function to each of the four cells (the loop of R121). -/
def mapCells (f : FieldElement → FieldElement) (w : Block) : Block :=
  pack (f (cell w 0 0)) (f (cell w 0 1)) (f (cell w 1 0)) (f (cell w 1 1))

/-- Combine two words cell by cell (the loop of R150). -/
def zipCells (f : FieldElement → FieldElement → FieldElement) (w k : Block) : Block :=
  pack (f (cell w 0 0) (cell k 0 0)) (f (cell w 0 1) (cell k 0 1))
    (f (cell w 1 0) (cell k 1 0)) (f (cell w 1 1) (cell k 1 1))

/-- Apply a function to the pair of cells of each row (the loop of R142 and R143). -/
def mapRows (f : FieldElement → FieldElement → FieldElement × FieldElement) (w : Block) : Block :=
  let top := f (cell w 0 0) (cell w 0 1)
  let bottom := f (cell w 1 0) (cell w 1 1)
  pack top.1 top.2 bottom.1 bottom.2

/-- R68: a field result in the result word, `R = zext_12(f)`. -/
def fieldResult (f : FieldElement) : Block := f.setWidth 12

/-! ## The operands a host writes (R74) -/

/-- R74: a literal stands for itself; `rN` for the result word of the host's `N`-th response (`lift`
makes it a value of the operand's type). An error response has no result word (R206), and a host cannot
use a response that has not arrived (R235). -/
def operandValue {α : Type} (answers : List Response) (lift : Block → α) : Operand α → Except Fault α
  | .lit x => .ok x
  | .result 0 => .error .responseNotArrived
  | .result (n + 1) =>
    match answers[n]? with
    | none => .error .responseNotArrived
    | some (.done r) => .ok (lift r)
    | some (.error _) => .error .noResultWord

/-- Two operands, the first looked up first. -/
def operandValues {α : Type} (answers : List Response) (lift : Block → α) (x y : Operand α) :
    Except Fault (α × α) :=
  match operandValue answers lift x, operandValue answers lift y with
  | .ok a, .ok b => .ok (a, b)
  | .error e, _ => .error e
  | .ok _, .error e => .error e

/-- What a call presents to the CORE, given the responses its host has received. -/
def resolveCall (answers : List Response) : Call → Except Fault Transaction
  | .command op a b =>
    match operandValues answers id a b with
    | .ok (x, y) => .ok (.command (commandWord op x y))
    | .error e => .error e
  | .encryptBlock block key =>
    match operandValues answers BitVec.toNat block key with
    | .ok (x, y) => .ok (.encryptBlock x y)
    | .error e => .error e
  | .decryptBlock block key =>
    match operandValues answers BitVec.toNat block key with
    | .ok (x, y) => .ok (.decryptBlock x y)
    | .error e => .error e

/-- The call that presents a command word as it stands (R60). -/
def Call.ofWord (cmd : Command) : Call :=
  .command (opField cmd) (.lit (aField cmd)) (.lit (bField cmd))

/-- The call that presents a transaction as it stands, its operands literals. -/
def Call.ofTransaction : Transaction → Call
  | .command cmd => Call.ofWord cmd
  | .encryptBlock block key => .encryptBlock (.lit block) (.lit key)
  | .decryptBlock block key => .decryptBlock (.lit block) (.lit key)

/-- The event by which a host issues a transaction as it stands. -/
def Accepted.present (a : Accepted) : Event := .request ⟨a.host, Call.ofTransaction a.transaction⟩

end Sys2Proof.Machine
end

