-- ==== Sys2Proof/Machine/Ops.lean ====
section
/-! DEFINITION. The operations the instructions share: the field functions (40_field_arithmetic.md R100 to
R104), the reads of the stored constants, the pair transform (43_columnmix.md R141), and the two ways a
command ends, with a result (`R <- v`, R13) or with an error status (`raise`, R13). The CORE has no trap
entry and no trap return (60_exceptions.md R209, R210): an error is the response of its own command. -/

namespace Sys2Proof.Machine

/-! ## Field functions -/

/-- R100: the carry-less product of two FieldElements, a polynomial of degree ≤ 4 in 5 bits. -/
def clmul (a b : FieldElement) : BitVec 5 :=
  [0, 1, 2].foldl (fun t i => if b.getLsbD i then t ^^^ (a.setWidth 5 <<< i) else t) 0

/-- R101: the remainder modulo the polynomial `p`, highest degree first. -/
def reduce (p : BitVec 4) (t : BitVec 5) : FieldElement :=
  ([4, 3].foldl (fun t d => if t.getLsbD d then t ^^^ (p.setWidth 5 <<< (d - 3)) else t) t).setWidth 3

/-- R102: `gmul(a, b) = reduce(clmul(a, b))`. -/
def gmul (p : BitVec 4) (a b : FieldElement) : FieldElement := reduce p (clmul a b)

/-- R103: `gadd(a, b) = a ^ b`. -/
def gadd (a b : FieldElement) : FieldElement := a ^^^ b

/-- R104: the nonzero FieldElements, searched in this order; how the inverse is found cannot be
observed (92_eei_decisions.md D10). -/
def nonzeroElements : List FieldElement := [1, 2, 3, 4, 5, 6, 7]

/-- R104: 0 for 0 (a convention), else the `b` in [1,7] with `gmul(a, b) = 1`. -/
def ginv (p : BitVec 4) (a : FieldElement) : FieldElement :=
  if a = 0 then 0 else (nonzeroElements.find? (fun b => gmul p a b = 1)).getD 0

/-! ## Reads of the stored constants -/

/-- R45: `RomRead(SBOX, i)`; every 3-bit index is a valid entry, so it cannot fail. -/
def romRead (rom : Rom) (i : FieldElement) : FieldElement := rom.sbox[i.toNat]'i.isLt

/-- R141: the pair transform of a 2×2 field matrix on the column vector `(u, v)`. -/
def mixPair (p : BitVec 4) (x : Mat2) (u v : FieldElement) : FieldElement × FieldElement :=
  (gadd (gmul p x.m00 u) (gmul p x.m01 v), gadd (gmul p x.m10 u) (gmul p x.m11 v))

/-! ## Sampling and answering -/

/-- The three outcomes of a step of this machine. -/
abbrev Result := Host.Outcome State Fault Refusal

/-- R47: the CORE samples one transaction of a host. -/
def State.accept (host : Nat) (t : Transaction) (s : State) : State :=
  { s with accepted := s.accepted ++ [⟨host, t⟩] }

/-- R234: the CORE answers the transaction it has sampled; the response joins the history. Nothing
else changes (R21). -/
def State.respond (r : Response) (s : State) : State :=
  { s with responses := s.responses ++ [r] }

/-- R13: `R <- v`, `S <- OK`. -/
def complete (r : Block) (s : State) : Result := .next (s.respond (.done r))

/-- R13, R206: `raise <Status>`: the response carries the status and no result word, no other state
changes, and the machine goes on with the next command. -/
def raise (e : ErrorKind) (s : State) : Result := .next (s.respond (.error e))

/-! ## Views of the history -/

/-- The transactions that have their response, each with it, oldest first. -/
def State.history (s : State) : List (Accepted × Response) := s.accepted.zip s.responses

/-- R50: the responses of one host, in its issue order. -/
def State.responsesOf (host : Nat) (s : State) : List Response :=
  (s.history.filter (fun x => x.1.host == host)).map (·.2)

/-- R206, 92_eei_decisions.md D27: the record of every error response, never cleared. -/
def State.errorRecord (s : State) : List (Accepted × Response) :=
  s.history.filter (fun x => x.2.isError)

/-- R231, R236: the transactions the CORE has sampled and not yet answered. -/
def State.inFlight (s : State) : List Accepted := s.accepted.drop s.responses.length

end Sys2Proof.Machine
end

