-- ==== Sys2Proof/Machine/ColumnMix.lean ====
section
/-! DEFINITION. ColumnMix: the 2×2 mix matrix multiplier (43_columnmix.md). The unit keeps the source's
name; the matrix multiplies the two cells of each ROW, as 90_conflicts.md C1 resolves. -/

namespace Sys2Proof.Machine

/-- R142: M_F times each row pair. -/
def mixForward (rom : Rom) (wa : Block) : Block := mapRows (mixPair rom.p rom.mF) wa

/-- R143: M_I times each row pair. -/
def mixInverse (rom : Rom) (wa : Block) : Block := mapRows (mixPair rom.p rom.mI) wa

/-- R142: MIXF. -/
def execMixf (wa : Block) (s : State) : Result := complete (mixForward s.rom wa) s

/-- R143: MIXI. -/
def execMixi (wa : Block) (s : State) : Result := complete (mixInverse s.rom wa) s

end Sys2Proof.Machine
end

