-- ==== Sys2Proof/Machine/KeyMix.lean ====
section
/-! DEFINITION. KeyMix: the round-key XOR mixer (44_keymix.md). -/

namespace Sys2Proof.Machine

/-- R150: gadd of the block and the key, cell by cell. -/
def keyMix (wa : Block) (kb : Key) : Block := zipCells gadd wa kb

/-- R150: KEYMIX. -/
def execKeymix (wa : Block) (kb : Key) (s : State) : Result := complete (keyMix wa kb) s

end Sys2Proof.Machine
end

