-- ==== Sys2Proof/Machine/RowShift.lean ====
section
/-! DEFINITION. RowShift: the 2×2 row-shift permutation (42_rowshift.md). SHIFTF and SHIFTI compute the
same permutation and stay distinct operations (30_encoding.md R75). -/

namespace Sys2Proof.Machine

/-- R130: row 0 unchanged, the cells of row 1 swapped. -/
def shiftForward (wa : Block) : Block :=
  pack (cell wa 0 0) (cell wa 0 1) (cell wa 1 1) (cell wa 1 0)

/-- R131: the same permutation as R130, under its own name. -/
def shiftInverse (wa : Block) : Block :=
  pack (cell wa 0 0) (cell wa 0 1) (cell wa 1 1) (cell wa 1 0)

/-- R130: SHIFTF. -/
def execShiftf (wa : Block) (s : State) : Result := complete (shiftForward wa) s

/-- R131: SHIFTI. -/
def execShifti (wa : Block) (s : State) : Result := complete (shiftInverse wa) s

end Sys2Proof.Machine
end

