-- ==== Sys2Proof/Machine/SBox.lean ====
section
/-! DEFINITION. SBox: cell substitution by multiplicative inverse (41_sbox.md). -/

namespace Sys2Proof.Machine

/-- R121: each cell of the block through the one SBOX, for both directions (R122). -/
def substitute (rom : Rom) (wa : Block) : Block := mapCells (romRead rom) wa

/-- R121: SUB. -/
def execSub (wa : Block) (s : State) : Result := complete (substitute s.rom wa) s

end Sys2Proof.Machine
end

