-- ==== Sys2Proof/Machine/Cipher.lean ====
section
/-! DEFINITION. Cipher: the 12-bit block round pipeline (45_cipher.md). Exactly one round, no key schedule,
no chaining (R163); the stages pass 12-bit words and no intermediate value is visible. -/

namespace Sys2Proof.Machine

/-- R160: SUB, SHIFTF, MIXF, KEYMIX. -/
def encryptWord (rom : Rom) (wa : Block) (kb : Key) : Block :=
  keyMix (mixForward rom (shiftForward (substitute rom wa))) kb

/-- R161: KEYMIX, MIXI, SHIFTI, SUB. -/
def decryptWord (rom : Rom) (wa : Block) (kb : Key) : Block :=
  substitute rom (shiftInverse (mixInverse rom (keyMix wa kb)))

/-- R160: ENC. -/
def execEnc (wa : Block) (kb : Key) (s : State) : Result := complete (encryptWord s.rom wa kb) s

/-- R161: DEC. -/
def execDec (wa : Block) (kb : Key) (s : State) : Result := complete (decryptWord s.rom wa kb) s

/-- R164: the entry over naturals: the key's range is checked first, then the block's, then ENC. -/
def enterEncryptBlock (block key : Nat) (s : State) : Result :=
  if key > 4095 then raise .invalidKeyLength s
  else if block > 4095 then raise .invalidBlockValue s
  else execEnc (BitVec.ofNat 12 block) (BitVec.ofNat 12 key) s

/-- R165: the entry over naturals: the key's range is checked first, then the block's, then DEC. -/
def enterDecryptBlock (block key : Nat) (s : State) : Result :=
  if key > 4095 then raise .invalidKeyLength s
  else if block > 4095 then raise .invalidBlockValue s
  else execDec (BitVec.ofNat 12 block) (BitVec.ofNat 12 key) s

end Sys2Proof.Machine
end

