-- ==== Sys2Proof/Machine/FieldArithmetic.lean ====
section
/-! DEFINITION. FieldArithmetic: the adder, the multiplier and the inverse (40_field_arithmetic.md). -/

namespace Sys2Proof.Machine

/-- R105: GFADD, `R <- zext_12(gadd(fa, fb))`. -/
def execGfadd (fa fb : FieldElement) (s : State) : Result :=
  complete (fieldResult (gadd fa fb)) s

/-- R106: GFMUL, `R <- zext_12(gmul(fa, fb))`. -/
def execGfmul (fa fb : FieldElement) (s : State) : Result :=
  complete (fieldResult (gmul s.rom.p fa fb)) s

/-- R107: GFINV, `R <- zext_12(RomRead(SBOX, fa))`. -/
def execGfinv (fa : FieldElement) (s : State) : Result :=
  complete (fieldResult (romRead s.rom fa)) s

end Sys2Proof.Machine
end

