-- ==== Sys2Proof/Machine/Dispatch.lean ====
section
/-! DEFINITION. One arm per operation of the opcode map (30_encoding.md R69). -/

namespace Sys2Proof.Machine

def exec (i : Instr) (s : State) : Host.Outcome State Fault Refusal :=
  match i with
  | .gfadd fa fb => Sys2Proof.Machine.execGfadd fa fb s
  | .gfmul fa fb => Sys2Proof.Machine.execGfmul fa fb s
  | .gfinv fa => Sys2Proof.Machine.execGfinv fa s
  | .sub wa => Sys2Proof.Machine.execSub wa s
  | .shiftf wa => Sys2Proof.Machine.execShiftf wa s
  | .shifti wa => Sys2Proof.Machine.execShifti wa s
  | .mixf wa => Sys2Proof.Machine.execMixf wa s
  | .mixi wa => Sys2Proof.Machine.execMixi wa s
  | .keymix wa kb => Sys2Proof.Machine.execKeymix wa kb s
  | .enc wa kb => Sys2Proof.Machine.execEnc wa kb s
  | .dec wa kb => Sys2Proof.Machine.execDec wa kb s

end Sys2Proof.Machine
end

