-- ==== Sys2Proof/Machine/Serve.lean ====
section
/-! DEFINITION. Serving one event of the command port: a request is resolved, sampled and answered
(20_memory.md R47, R50); a reset loses what is in progress (70_reset_and_hazards.md R231). -/

namespace Sys2Proof.Machine

/-- The answer to a sampled transaction: a command word is decoded (R70) and executed, or refused with the
decoder's status (R201, R202); an entry checks its ranges (R164, R165). -/
def serveTransaction (t : Transaction) (s : State) : Result :=
  match t with
  | .command cmd =>
    match decode cmd with
    | .ok i => exec i s
    | .error e => raise e s
  | .encryptBlock block key => enterEncryptBlock block key s
  | .decryptBlock block key => enterDecryptBlock block key s

/-- One request: the operands the host wrote are resolved against the host's own responses (R74), the
transaction is sampled whole (R47) and answered. -/
def serveRequest (q : Request) (s : State) : Result :=
  match resolveCall (s.responsesOf q.host) q.call with
  | .ok t => serveTransaction t (s.accept q.host t)
  | .error f => .fault f

/-- R230, R231: reset sets nothing, and a command in progress when it is asserted produces no
response (log entry 5). -/
def serveReset (_inProgress : List Request) (s : State) : Result := .next s

/-- One event of the command port. -/
def serveEvent (e : Event) (s : State) : Result :=
  match e with
  | .request q => serveRequest q s
  | .reset inProgress => serveReset inProgress s

/-- R20: with no command waiting the CORE takes no step of its own; nothing changes (log entry 4). -/
def idle (s : State) : Result := .next s

end Sys2Proof.Machine
end

