-- ==== Sys2Proof/Machine/Step.lean ====
section
/-! DEFINITION. One step: the next event of the command port, served (70_reset_and_hazards.md R234). -/

namespace Sys2Proof.Machine

/-- The next event leaves the list of what is pending and is served; with none, the CORE idles. -/
def step (s : State) : Host.Outcome State Fault Refusal :=
  match s.pending with
  | [] => idle s
  | e :: rest => serveEvent e { s with pending := rest }

/-- The command word in the low `nbits` bits of `w` is presented next, by host 0, before whatever is
pending (log entry 12: a program is what the hosts issue; nothing else starts one). -/
def State.withFetchWord (s : State) (nbits w : Nat) : State :=
  { s with pending := .request ⟨0, Call.ofWord (BitVec.ofNat 28 (w % 2 ^ nbits))⟩ :: s.pending }

end Sys2Proof.Machine
end

