-- ==== Sys2Proof/Machine/Assembler.lean ====
section
/-! DEFINITION. The assembler syntax (30_encoding.md R74): a lowercase mnemonic, its operands separated by
commas, each a literal (decimal, `0x` hex or `0b` binary) or `rN`; a line may name its response, `rN = …`.
There are no pseudo-instructions, and `shifti` is never folded into `shiftf` (R75). The syntax has no
effect on what a command does (92_eei_decisions.md D17). -/

namespace Sys2Proof.Machine

/-! ## Characters -/

/-- The value of a digit, of either case. -/
def digitValue (c : Char) : Option Nat :=
  if '0' ≤ c ∧ c ≤ '9' then some (c.toNat - '0'.toNat)
  else if 'a' ≤ c ∧ c ≤ 'f' then some (c.toNat - 'a'.toNat + 10)
  else if 'A' ≤ c ∧ c ≤ 'F' then some (c.toNat - 'A'.toNat + 10)
  else none

/-- The lowercase hexadecimal digit of a value below 16. -/
def hexDigit (n : BitVec 4) : Char :=
  if n.toNat < 10 then Char.ofNat ('0'.toNat + n.toNat) else Char.ofNat ('a'.toNat + (n.toNat - 10))

/-- The digits of a number in a base, continuing from `acc`. -/
def digitsValue (base : Nat) : Nat → List Char → Option Nat
  | acc, [] => some acc
  | acc, c :: cs =>
    match digitValue c with
    | some d => if d < base then digitsValue base (base * acc + d) cs else none
    | none => none

/-- A number of at least one digit. -/
def number (base : Nat) : List Char → Option Nat
  | [] => none
  | cs => digitsValue base 0 cs

/-- Leading spaces removed. -/
def skipSpaces : List Char → List Char
  | ' ' :: cs => skipSpaces cs
  | cs => cs

/-- Spaces removed at both ends. -/
def trimSpaces (cs : List Char) : List Char := (skipSpaces (skipSpaces cs).reverse).reverse

/-- The text before the first `sep` and, if there is one, the text after it. -/
def cutAt (sep : Char) : List Char → List Char × Option (List Char)
  | [] => ([], none)
  | c :: cs =>
    if c = sep then ([], some cs)
    else ((c :: (cutAt sep cs).1), (cutAt sep cs).2)

/-! ## Operands -/

/-- R74: a literal: decimal, `0x` hex or `0b` binary. -/
def literal : List Char → Option Nat
  | '0' :: 'x' :: cs => number 16 cs
  | '0' :: 'b' :: cs => number 2 cs
  | cs => number 10 cs

/-- R74: `rN`, or a literal below `bound` (7 for a field, 4095 for a block or key, R66, R67; a literal
beyond the operand's width has no command, log entry 15). -/
def operandText (bound : Nat) : List Char → Option (Operand (BitVec 12))
  | 'r' :: cs =>
    match number 10 cs with
    | some n => some (.result n)
    | none => none
  | cs =>
    match literal cs with
    | some n => if n ≤ bound then some (.lit (BitVec.ofNat 12 n)) else none
    | none => none

/-! ## Commands -/

/-- R69, R74: the lowercase mnemonics, each with its opcode and format. -/
def mnemonicTable : List (List Char × BitVec 4 × Format) :=
  [(['g', 'f', 'a', 'd', 'd'], 0x0, .ff2), (['g', 'f', 'm', 'u', 'l'], 0x1, .ff2),
   (['g', 'f', 'i', 'n', 'v'], 0x2, .ff1), (['s', 'u', 'b'], 0x3, .fb1),
   (['s', 'h', 'i', 'f', 't', 'f'], 0x4, .fb1), (['s', 'h', 'i', 'f', 't', 'i'], 0x5, .fb1),
   (['m', 'i', 'x', 'f'], 0x6, .fb1), (['m', 'i', 'x', 'i'], 0x7, .fb1),
   (['k', 'e', 'y', 'm', 'i', 'x'], 0x8, .fb2), (['e', 'n', 'c'], 0x9, .fb2),
   (['d', 'e', 'c'], 0xA, .fb2)]

/-- One operand, the other operand field zero (R63, R64). -/
def assembleOne (op : BitVec 4) (bound : Nat) (text : List Char) : Option Call :=
  match operandText bound (trimSpaces text) with
  | some x => some (.command op x (.lit 0))
  | none => none

/-- Two operands, separated by a comma (R62, R65). -/
def assembleTwo (op : BitVec 4) (bound : Nat) (text : List Char) : Option Call :=
  match cutAt ',' text with
  | (_, none) => none
  | (first, some second) =>
    match operandText bound (trimSpaces first), operandText bound (trimSpaces second) with
    | some x, some y => some (.command op x y)
    | _, _ => none

/-- R74: one command: a mnemonic, a space, its operands. -/
def assemble (text : List Char) : Option Call :=
  match cutAt ' ' (skipSpaces text) with
  | (name, operands) =>
    match mnemonicTable.lookup name, operands with
    | some (op, .ff2), some rest => assembleTwo op 7 rest
    | some (op, .ff1), some rest => assembleOne op 7 rest
    | some (op, .fb1), some rest => assembleOne op 4095 rest
    | some (op, .fb2), some rest => assembleTwo op 4095 rest
    | _, _ => none

/-- R74: a line of a host program, `rN = <command>` or a command alone. -/
def assembleLine (text : List Char) : Option (Option Nat × Call) :=
  match cutAt '=' text with
  | (whole, none) => (assemble whole).map (fun c => (none, c))
  | (name, some command) =>
    match trimSpaces name with
    | 'r' :: digits =>
      match number 10 digits, assemble command with
      | some n, some c => some (some n, c)
      | _, _ => none
    | _ => none

/-- A host program, whose `N`-th line (from `first`) names its response `rN` if it names it (log entry 7). -/
def assembleProgram (first : Nat) : List (List Char) → Option (List Call)
  | [] => some []
  | line :: lines =>
    match assembleLine line, assembleProgram (first + 1) lines with
    | some (none, c), some cs => some (c :: cs)
    | some (some n, c), some cs => if n = first then some (c :: cs) else none
    | _, _ => none

/-! ## Writing a command -/

/-- The lowercase mnemonic of an operation (R74). -/
def mnemonicText : Instr → List Char
  | .gfadd _ _ => ['g', 'f', 'a', 'd', 'd']
  | .gfmul _ _ => ['g', 'f', 'm', 'u', 'l']
  | .gfinv _ => ['g', 'f', 'i', 'n', 'v']
  | .sub _ => ['s', 'u', 'b']
  | .shiftf _ => ['s', 'h', 'i', 'f', 't', 'f']
  | .shifti _ => ['s', 'h', 'i', 'f', 't', 'i']
  | .mixf _ => ['m', 'i', 'x', 'f']
  | .mixi _ => ['m', 'i', 'x', 'i']
  | .keymix _ _ => ['k', 'e', 'y', 'm', 'i', 'x']
  | .enc _ _ => ['e', 'n', 'c']
  | .dec _ _ => ['d', 'e', 'c']

/-- A field operand as one decimal digit. -/
def fieldText (f : FieldElement) : List Char := [hexDigit (f.setWidth 4)]

/-- A block or key operand as `0x` and three hex digits (R11). -/
def blockText (w : Block) : List Char :=
  ['0', 'x', hexDigit (w.extractLsb' 8 4), hexDigit (w.extractLsb' 4 4), hexDigit (w.extractLsb' 0 4)]

/-- The operands of an operation, separated by a comma and a space (R74). -/
def operandsText : Instr → List Char
  | .gfadd fa fb | .gfmul fa fb => fieldText fa ++ [',', ' '] ++ fieldText fb
  | .gfinv fa => fieldText fa
  | .sub wa | .shiftf wa | .shifti wa | .mixf wa | .mixi wa => blockText wa
  | .keymix wa kb | .enc wa kb | .dec wa kb => blockText wa ++ [',', ' '] ++ blockText kb

/-- The text of an operation (R74). -/
def disassemble (i : Instr) : List Char := mnemonicText i ++ ' ' :: operandsText i

end Sys2Proof.Machine
end

