-- ==== Sys2Proof/Safety.lean ====
section
/-! DEFINITION. The terms claims use: the response a transaction must have, as a function of it alone
(10_state.md R21, 20_memory.md R50), written from the spec's per-cell equations and not from the machine's
own functions; the invariant of the machine; and what a safe run is. -/

namespace Sys2Proof.Machine

/-! ## The response as a function of the transaction -/

/-- R106: the field product, modulo `x³+x+1`. -/
def product (a b : FieldElement) : FieldElement := gmul polynomial a b

/-- R104: the field inverse with the 0→0 convention. -/
def inverse (a : FieldElement) : FieldElement := ginv polynomial a

/-- R120, R121: every cell replaced by its inverse. -/
def substituted (w : Block) : Block :=
  pack (inverse (cell w 0 0)) (inverse (cell w 0 1)) (inverse (cell w 1 0)) (inverse (cell w 1 1))

/-- R130, in bits: `{wa[11:6], wa[2:0], wa[5:3]}`. -/
def shifted (w : Block) : Block :=
  w.extractLsb' 6 6 ++ w.extractLsb' 0 3 ++ w.extractLsb' 3 3

/-- R142, per row: `d0 = c0 ^ gmul(2, c1)`, `d1 = gmul(2, c0) ^ c1`. -/
def mixed (w : Block) : Block :=
  pack (cell w 0 0 ^^^ product 2 (cell w 0 1)) (product 2 (cell w 0 0) ^^^ cell w 0 1)
    (cell w 1 0 ^^^ product 2 (cell w 1 1)) (product 2 (cell w 1 0) ^^^ cell w 1 1)

/-- R143, per row: `d0 = gmul(2, c0) ^ gmul(4, c1)`, `d1 = gmul(4, c0) ^ gmul(2, c1)`. -/
def unmixed (w : Block) : Block :=
  pack (product 2 (cell w 0 0) ^^^ product 4 (cell w 0 1)) (product 4 (cell w 0 0) ^^^ product 2 (cell w 0 1))
    (product 2 (cell w 1 0) ^^^ product 4 (cell w 1 1)) (product 4 (cell w 1 0) ^^^ product 2 (cell w 1 1))

/-- The result word the spec gives an operation. -/
def specResult : Instr → Block
  | .gfadd a b => fieldResult (a ^^^ b)
  | .gfmul a b => fieldResult (product a b)
  | .gfinv a => fieldResult (inverse a)
  | .sub w => substituted w
  | .shiftf w => shifted w
  | .shifti w => shifted w
  | .mixf w => mixed w
  | .mixi w => unmixed w
  | .keymix w k => w ^^^ k
  | .enc w k => mixed (shifted (substituted w)) ^^^ k
  | .dec w k => substituted (shifted (unmixed (w ^^^ k)))

/-- R164, R165, R205: the response of an entry over naturals, `make` being its operation. -/
def entryResponse (make : Block → Key → Instr) (block key : Nat) : Response :=
  if key > 4095 then .error .invalidKeyLength
  else if block > 4095 then .error .invalidBlockValue
  else .done (specResult (make (BitVec.ofNat 12 block) (BitVec.ofNat 12 key)))

/-- R50: the response to a transaction, a function of its own fields. -/
def specResponse : Transaction → Response
  | .command cmd =>
    match decode cmd with
    | .ok i => .done (specResult i)
    | .error e => .error e
  | .encryptBlock block key => entryResponse .enc block key
  | .decryptBlock block key => entryResponse .dec block key

/-! ## What a host receives for its own calls -/

/-- The calls of one host among events, in its issue order (R50); a reset issues none. -/
def callsOf (host : Nat) : List Event → List Call
  | [] => []
  | .reset _ :: events => callsOf host events
  | .request q :: events => if q.host = host then q.call :: callsOf host events else callsOf host events

/-- The hosts of the requests among events, in the order of the events. -/
def issuers : List Event → List Nat
  | [] => []
  | .reset _ :: events => issuers events
  | .request q :: events => q.host :: issuers events

/-- R50, R74: all the responses of a host that has received `answers` and issues these calls: each call is
resolved against the host's own earlier responses and answered as a function of its fields. The fault is
that of the first call with a name that has no value (log entries 7 and 8). -/
def hostResponses : List Call → List Response → Except Fault (List Response)
  | [], answers => .ok answers
  | c :: calls, answers =>
    match resolveCall answers c with
    | .ok t => hostResponses calls (answers ++ [specResponse t])
    | .error f => .error f

/-! ## The invariant -/

/-- R215: the request comes from one of the N_REQ hosts. -/
def Request.fromHost (q : Request) : Prop := q.host < Config.requesters

/-- Every request of an event comes from one of the N_REQ hosts. -/
def Event.fromHosts : Event → Prop
  | .request q => q.fromHost
  | .reset inProgress => ∀ q ∈ inProgress, q.fromHost

/-- What holds at reset and after every step. -/
structure State.Inv (s : State) : Prop where
  /-- R26 to R28, R33: the stored constants hold their values. -/
  constants : s.rom = romConstants
  /-- R234: every sampled transaction has its response. -/
  answered : s.accepted.length = s.responses.length
  /-- R50: each response is the function of its own transaction. -/
  pure : ∀ x ∈ s.history, x.2 = specResponse x.1.transaction
  /-- R215: what has been sampled came from the hosts there are. -/
  sampledFromHosts : ∀ a ∈ s.accepted, a.host < Config.requesters
  /-- R215: what is pending comes from the hosts there are. -/
  pendingFromHosts : ∀ e ∈ s.pending, e.fromHosts

/-! ## Reading an outcome -/

/-- R61: the result word of the response a next state has just received; none where the outcome is
no next state, the history is empty or the last response is an error. -/
def lastResult : Result → Option Block
  | .next t => t.responses.getLast?.bind Response.result?
  | .fault _ => none
  | .refused _ => none

/-! ## Safe runs -/

/-- R233: what a host has to keep: words of the opcode map with reserved bits zero, entry values in
[0, 4095]. -/
def Transaction.dutiful : Transaction → Bool
  | .command cmd => wellFormedCommand cmd
  | .encryptBlock block key => wellFormedEntry block key
  | .decryptBlock block key => wellFormedEntry block key

/-- R233, with operands `rN` (R74): every call of a host that has received `answers` names only values that
exist, and what it presents is dutiful. -/
def dutifulCalls : List Call → List Response → Bool
  | [], _ => true
  | c :: calls, answers =>
    match resolveCall answers c with
    | .ok t => t.dutiful && dutifulCalls calls (answers ++ [specResponse t])
    | .error _ => false

/-- `k` steps that no fault and no refusal stops and that leave no error response in the record
of the run (which the model keeps by its own choice, log entry 6; R206: "no error occurred" as an explicit premise, 92_eei_decisions.md D27). -/
def SafeRun (k : Nat) (s : State) : Prop :=
  ∃ t, Host.Core.run core k s = .next t ∧ t.errorRecord = []

end Sys2Proof.Machine
end

