-- ==== Sys2Proof/Certificates/Slice0/Obligations.lean ====
section
/-! DEFINITION. The statements for the provers, from the numbered rules of spec/. -/

open Sys2Proof Sys2Proof.Machine

namespace Sys2Proof.Claims

/-- R120: the SBOX values, as the spec's table prints them. -/
def sboxValue (a : FieldElement) : FieldElement :=
  ([0, 1, 5, 6, 7, 2, 3, 4] : List FieldElement).getD a.toNat 0

/-- R106: the full product table, row `a`, column `b`, as the spec prints it. -/
def productTable : List (List FieldElement) :=
  [[0, 0, 0, 0, 0, 0, 0, 0],
   [0, 1, 2, 3, 4, 5, 6, 7],
   [0, 2, 4, 6, 3, 1, 7, 5],
   [0, 3, 6, 5, 7, 4, 1, 2],
   [0, 4, 3, 7, 6, 2, 5, 1],
   [0, 5, 1, 4, 2, 7, 3, 6],
   [0, 6, 7, 1, 5, 3, 2, 4],
   [0, 7, 5, 2, 1, 6, 4, 3]]

/-- R106: the product the table gives. -/
def productValue (a b : FieldElement) : FieldElement := (productTable.getD a.toNat []).getD b.toNat 0

/-- R142, R143, R141: `gmul(m, u) ^ gmul(n, v)`, by the spec's product table. -/
def rowSum (m u n v : FieldElement) : FieldElement := productValue m u ^^^ productValue n v

/-- R100: the coefficient of `x^k` in the product of two polynomials over GF(2): the XOR of
`a_i · b_(k-i)`. -/
def coefficient {n m : Nat} (a : BitVec n) (b : BitVec m) (k : Nat) : Bool :=
  (List.range (k + 1)).foldl (fun t i => t ^^ (a.getLsbD i && b.getLsbD (k - i))) false

/-- R74: what a name stands for in one form of call, `lift` making a result word a value of its operands.
A name that has a result word stands for it in either operand. A name of an error response, `r0` and a name
beyond the host's responses have no value: in either operand (the first is looked up first) the step
stops. -/
def NamesStandForResults {α : Type} (lift : Block → α) (call : Operand α → Operand α → Call) : Prop :=
  ∀ (s : State) (host : Nat) (rest : List Event),
    let presenting (c : Call) : State := { s with pending := .request ⟨host, c⟩ :: rest }
    (∀ (n : Nat) (r : Block) (x : Operand α), (s.responsesOf host)[n]? = some (.done r) →
      step (presenting (call (.result (n + 1)) x)) = step (presenting (call (.lit (lift r)) x)) ∧
      step (presenting (call x (.result (n + 1)))) = step (presenting (call x (.lit (lift r))))) ∧
    (∀ (n : Nat) (e : ErrorKind), (s.responsesOf host)[n]? = some (.error e) →
      (∀ y, step (presenting (call (.result (n + 1)) y)) = .fault .noResultWord) ∧
      ∀ x, step (presenting (call (.lit x) (.result (n + 1)))) = .fault .noResultWord) ∧
    ∀ n : Nat, n = 0 ∨ (s.responsesOf host).length < n →
      (∀ y, step (presenting (call (.result n) y)) = .fault .responseNotArrived) ∧
      ∀ x, step (presenting (call (.lit x) (.result n))) = .fault .responseNotArrived

end Sys2Proof.Claims

open Sys2Proof.Claims

/-! ## Reset and the stored constants -/

/-- R33: the value of every piece of state after reset; the constants are the same after a later reset. -/
def Obligations.ResetHoldsTheConstantsAndNoResponse : Prop :=
  State.reset.rom.sbox.toList = [0, 1, 5, 6, 7, 2, 3, 4] ∧
  State.reset.rom.mF = ⟨1, 2, 2, 1⟩ ∧
  State.reset.rom.mI = ⟨2, 4, 4, 2⟩ ∧
  State.reset.rom.p = 0b1011#4 ∧
  State.reset.responses = [] ∧
  ∀ (s : State) (inProgress : List Request) (rest : List Event),
    s.pending = .reset inProgress :: rest → ∃ t, step s = .next t ∧ t.rom = s.rom

/-- R231: what is in progress when reset is asserted gets no response, and issuing it again gives what it
would have given without the reset. (That a reset keeps the history is the model's reading of R230, log
entry 5.) -/
def Obligations.ResetLosesTheResponseAndReissueGivesIt : Prop :=
  ∀ (s : State) (q : Request) (inProgress : List Request) (rest : List Event), q ∈ inProgress →
    s.pending = .reset inProgress :: .request q :: rest →
    ∃ t, step s = .next t ∧ t.responses = s.responses ∧ t.accepted = s.accepted ∧ t.rom = s.rom ∧
      step t = step { s with pending := .request q :: rest }

/-- R21: the only stored items are constants, and no step changes them. -/
def Obligations.NoStepWritesTheConstants : Prop :=
  ∀ s t : State, step s = .next t → t.rom = s.rom

/-- The invariant (constants loaded, one response for each sampled transaction, each response the
function of its transaction, hosts in range) holds at reset. (The numbering of the hosts is the model's
choice, log entry 10.) -/
def Obligations.InvariantHoldsAtReset : Prop := State.reset.Inv

/-- Every step keeps the invariant, from every state that meets it. (The numbering of the hosts is the
model's choice, log entry 10.) -/
def Obligations.EveryStepKeepsTheInvariant : Prop :=
  ∀ s t : State, s.Inv → step s = .next t → t.Inv

/-! ## Encoding -/

/-- Words written out from the spec's formats (R62 to R65) decode to the instruction they stand for. -/
def Obligations.WrittenWordsDecodeToTheirInstructions : Prop :=
  decode 0b0000000000000101000000000011#28 = .ok (.gfadd 5 3) ∧
  decode 0b0010000000000101000000000000#28 = .ok (.gfinv 5) ∧
  decode 0b0011011000010110000000000000#28 = .ok (.sub 0x616) ∧
  decode 0b0101110000011101000000000000#28 = .ok (.shifti 0xC1D) ∧
  decode 0b0110110000011101000000000000#28 = .ok (.mixf 0xC1D) ∧
  decode 0b1000110111010011010100111100#28 = .ok (.keymix 0xDD3 0x53C) ∧
  decode 0b1010100011101111010100111100#28 = .ok (.dec 0x8EF 0x53C)

/-- Decoding the word of any instruction, at every operand value, gives the instruction back. -/
def Obligations.DecodeOfEncodeIsTheInstruction : Prop :=
  ∀ i : Instr, decode (encode i) = .ok i

/-- A word that decodes is the word of what it decodes to: no word of an instruction but its own is
accepted, so no bit is ignored. -/
def Obligations.EncodeOfDecodeIsTheWord : Prop :=
  ∀ (cmd : Command) (i : Instr), decode cmd = .ok i → encode i = cmd

/-- R70: the decoder is total; a word is valid exactly when it matches a row of the table; at most one
row matches; otherwise the opcode decides which status it gets. -/
def Obligations.WordsAreValidExactlyWhenOneRowMatches : Prop :=
  (∀ cmd : Command, (∃ i, decode cmd = .ok i) ↔ ∃ row ∈ opcodeTable, cmd &&& row.mask = row.pattern) ∧
  (∀ cmd : Command, ∀ row ∈ opcodeTable, ∀ row' ∈ opcodeTable,
    cmd &&& row.mask = row.pattern → cmd &&& row'.mask = row'.pattern → row = row') ∧
  (∀ cmd : Command, (∀ row ∈ opcodeTable, cmd &&& row.mask ≠ row.pattern) →
    decode cmd = .error (if 0xB ≤ (cmd.extractLsb' 24 4).toNat then .reservedOpcode
      else .reservedOperandBits)) ∧
  (∀ (cmd : Command) (i : Instr), decode cmd = .ok i → opcodeOf i = cmd.extractLsb' 24 4)

/-- R71, R201: an opcode 0xB to 0xF, whatever the operand fields hold, is answered ReservedOpcode, with no
result; nothing else is recorded and nothing else changes. -/
def Obligations.ReservedOpcodesAreAnsweredReservedOpcode : Prop :=
  ∀ (s : State) (cmd : Command), 0xB ≤ (cmd.extractLsb' 24 4).toNat →
    serveTransaction (.command cmd) s =
      .next { s with responses := s.responses ++ [.error .reservedOpcode] }

/-- R72, R202: a set reserved operand bit of an opcode 0x0 to 0x7 is answered ReservedOperandBits, with no
result; 0x8 to 0xA have none. -/
def Obligations.ReservedOperandBitsAreAnsweredReservedOperandBits : Prop :=
  (∀ (s : State) (op : BitVec 4) (a b : BitVec 12),
    (op.toNat ≤ 1 ∧ (a.extractLsb' 3 9 ≠ 0 ∨ b.extractLsb' 3 9 ≠ 0) ∨
      op.toNat = 2 ∧ (a.extractLsb' 3 9 ≠ 0 ∨ b ≠ 0) ∨
      3 ≤ op.toNat ∧ op.toNat ≤ 7 ∧ b ≠ 0) →
    serveTransaction (.command (op ++ a ++ b)) s =
      .next { s with responses := s.responses ++ [.error .reservedOperandBits] }) ∧
  ∀ (op : BitVec 4) (a b : BitVec 12), 8 ≤ op.toNat → op.toNat ≤ 0xA →
    ∃ i, decode (op ++ a ++ b) = .ok i

/-! ## Cells -/

/-- R40: `pack` and `cell` are inverse bijections, with each cell at the bits the table gives. -/
def Obligations.PackAndCellAreInverseAtTheTablesBits : Prop :=
  (∀ w : Block, cell w 0 0 = w.extractLsb' 9 3 ∧ cell w 0 1 = w.extractLsb' 6 3 ∧
    cell w 1 0 = w.extractLsb' 3 3 ∧ cell w 1 1 = w.extractLsb' 0 3) ∧
  (∀ w : Block, pack (cell w 0 0) (cell w 0 1) (cell w 1 0) (cell w 1 1) = w) ∧
  ∀ c00 c01 c10 c11 : FieldElement,
    cell (pack c00 c01 c10 c11) 0 0 = c00 ∧ cell (pack c00 c01 c10 c11) 0 1 = c01 ∧
    cell (pack c00 c01 c10 c11) 1 0 = c10 ∧ cell (pack c00 c01 c10 c11) 1 1 = c11

/-! ## FieldArithmetic -/

/-- R105: GFADD: its encoding and decode faults, its result, its corner cases; nothing else changes. -/
def Obligations.GfaddAnswersTheXorOfItsOperands : Prop :=
  (∀ a b : BitVec 12, decode (0x0#4 ++ a ++ b) =
    if a.extractLsb' 3 9 = 0 ∧ b.extractLsb' 3 9 = 0
    then .ok (.gfadd (a.extractLsb' 0 3) (b.extractLsb' 0 3)) else .error .reservedOperandBits) ∧
  (∀ (fa fb : FieldElement) (s : State), exec (.gfadd fa fb) s =
    .next { s with responses := s.responses ++ [.done ((fa ^^^ fb).setWidth 12)] }) ∧
  (∀ (fa fb : FieldElement) (s : State), lastResult (exec (.gfadd fa fa) s) = some 0 ∧
    lastResult (exec (.gfadd fa 0) s) = some (0#9 ++ fa) ∧
    ∀ r, lastResult (exec (.gfadd fa fb) s) = some r → r.extractLsb' 3 9 = 0) ∧
  ∀ s : State, lastResult (exec (.gfadd 5 3) s) = some 0x006

/-- R106: GFMUL: its encoding and decode faults, its result by the pseudocode and by the printed
table, its corner cases; nothing else changes. -/
def Obligations.GfmulAnswersTheProductModuloThePolynomial : Prop :=
  (∀ a b : BitVec 12, decode (0x1#4 ++ a ++ b) =
    if a.extractLsb' 3 9 = 0 ∧ b.extractLsb' 3 9 = 0
    then .ok (.gfmul (a.extractLsb' 0 3) (b.extractLsb' 0 3)) else .error .reservedOperandBits) ∧
  (∀ (fa fb : FieldElement) (s : State), exec (.gfmul fa fb) s =
    .next { s with responses := s.responses ++ [.done ((reduce s.rom.p (clmul fa fb)).setWidth 12)] }) ∧
  (∀ (fa fb : FieldElement) (s : State), s.rom = romConstants → exec (.gfmul fa fb) s =
    .next { s with responses := s.responses ++ [.done ((productValue fa fb).setWidth 12)] }) ∧
  (∀ (fa : FieldElement) (s : State), s.rom = romConstants →
    lastResult (exec (.gfmul fa 0) s) = some 0 ∧
    lastResult (exec (.gfmul fa 1) s) = some (0#9 ++ fa)) ∧
  ∀ s : State, s.rom = romConstants → lastResult (exec (.gfmul 7 7) s) = some 3 ∧
    lastResult (exec (.gfmul 2 4) s) = some 3

/-- R107 (with R104, R120): GFINV: its encoding and decode faults, its result by the printed table, which is
the one nonzero element whose product with the operand is 1, and 0 for 0; nothing else changes. -/
def Obligations.GfinvAnswersTheInverseAndZeroForZero : Prop :=
  (∀ a b : BitVec 12, decode (0x2#4 ++ a ++ b) =
    if a.extractLsb' 3 9 = 0 ∧ b = 0 then .ok (.gfinv (a.extractLsb' 0 3))
    else .error .reservedOperandBits) ∧
  (∀ (fa : FieldElement) (s : State), s.rom = romConstants → exec (.gfinv fa) s =
    .next { s with responses := s.responses ++ [.done ((sboxValue fa).setWidth 12)] }) ∧
  (∀ (fa : FieldElement) (s : State), s.rom = romConstants → fa ≠ 0 →
    ∀ fb : FieldElement, lastResult (exec (.gfinv fa) s) = some (fb.setWidth 12) ↔
      fb ≠ 0 ∧ lastResult (exec (.gfmul fa fb) s) = some 1) ∧
  (∀ (fa : FieldElement) (s : State), s.rom = romConstants →
    (lastResult (exec (.gfinv fa) s) = some (fa.setWidth 12) ↔ fa = 0 ∨ fa = 1) ∧
    ∀ r, lastResult (exec (.gfinv fa) s) = some r →
      lastResult (exec (.gfinv (r.extractLsb' 0 3)) s) = some (fa.setWidth 12)) ∧
  ∀ s : State, s.rom = romConstants → lastResult (exec (.gfinv 5) s) = some 2 ∧
    lastResult (exec (.gfinv 3) s) = some 6 ∧ lastResult (exec (.gfinv 4) s) = some 7

/-- R100 to R102: the result of GFMUL is the remainder of the polynomial product: coefficient by coefficient,
the product of the operands is `q·(x³+x+1)` plus a result of degree below 3, for some quotient `q`. -/
def Obligations.GfmulAnswersTheRemainderOfThePolynomialProduct : Prop :=
  ∀ (s : State) (a b : FieldElement), s.rom = romConstants →
    ∃ (r : FieldElement) (q : BitVec 2),
      exec (.gfmul a b) s = .next { s with responses := s.responses ++ [.done (r.setWidth 12)] } ∧
      ∀ k < 5, coefficient a b k = (coefficient 0b1011#4 q k ^^ r.getLsbD k)

/-- R108: the laws of GFADD, from any two states. -/
def Obligations.GfaddIsCommutativeAssociativeSelfInverse : Prop :=
  ∀ (s t : State) (a b c : FieldElement),
    lastResult (exec (.gfadd a b) s) = lastResult (exec (.gfadd b a) t) ∧
    (∀ ab bc : Block, lastResult (exec (.gfadd a b) s) = some ab →
      lastResult (exec (.gfadd b c) s) = some bc →
      lastResult (exec (.gfadd (ab.extractLsb' 0 3) c) t) =
        lastResult (exec (.gfadd a (bc.extractLsb' 0 3)) t)) ∧
    lastResult (exec (.gfadd a a) s) = some 0 ∧
    lastResult (exec (.gfadd a 0) s) = some (a.setWidth 12)

/-- R109: the laws of GFMUL, from any two states that hold the constants. -/
def Obligations.GfmulIsCommutativeAssociativeDistributive : Prop :=
  ∀ (s t : State) (a b c : FieldElement), s.rom = romConstants → t.rom = romConstants →
    lastResult (exec (.gfmul a b) s) = lastResult (exec (.gfmul b a) t) ∧
    (∀ ab bc : Block, lastResult (exec (.gfmul a b) s) = some ab →
      lastResult (exec (.gfmul b c) s) = some bc →
      lastResult (exec (.gfmul (ab.extractLsb' 0 3) c) t) =
        lastResult (exec (.gfmul a (bc.extractLsb' 0 3)) t)) ∧
    (∀ bc ab ac : Block, lastResult (exec (.gfadd b c) s) = some bc →
      lastResult (exec (.gfmul a b) s) = some ab → lastResult (exec (.gfmul a c) s) = some ac →
      lastResult (exec (.gfmul a (bc.extractLsb' 0 3)) t) =
        lastResult (exec (.gfadd (ab.extractLsb' 0 3) (ac.extractLsb' 0 3)) t)) ∧
    lastResult (exec (.gfmul a 0) s) = some 0 ∧
    lastResult (exec (.gfmul a 1) s) = some (a.setWidth 12) ∧
    ∀ r, lastResult (exec (.gfmul a b) s) = some r → r.toNat ≤ 7

/-- R110: exactly one nonzero inverse for each nonzero element, and none for 0. -/
def Obligations.ExactlyOneInverseOfEachNonzeroElement : Prop :=
  ∀ s : State, s.rom = romConstants →
    (∀ a : FieldElement, a ≠ 0 →
      ∃! b : FieldElement, b ≠ 0 ∧ lastResult (exec (.gfmul a b) s) = some 1) ∧
    (∀ b : FieldElement, lastResult (exec (.gfmul 0 b) s) = some 0) ∧
    lastResult (exec (.gfinv 0) s) = some 0

/-! ## SBox, RowShift, ColumnMix, KeyMix -/

/-- R121: SUB: its encoding and decode faults, its result cell by cell, its corner cases. -/
def Obligations.SubAnswersEveryCellThroughTheTable : Prop :=
  (∀ a b : BitVec 12, decode (0x3#4 ++ a ++ b) =
    if b = 0 then .ok (.sub a) else .error .reservedOperandBits) ∧
  (∀ (wa : Block) (s : State), s.rom = romConstants → exec (.sub wa) s =
    .next { s with responses := s.responses ++ [.done
      (sboxValue (wa.extractLsb' 9 3) ++ sboxValue (wa.extractLsb' 6 3) ++
        sboxValue (wa.extractLsb' 3 3) ++ sboxValue (wa.extractLsb' 0 3))] }) ∧
  ∀ s : State, s.rom = romConstants → lastResult (exec (.sub 0x000) s) = some 0x000 ∧
    lastResult (exec (.sub 0x249) s) = some 0x249 ∧ lastResult (exec (.sub 0xFFF) s) = some 0x924 ∧
    lastResult (exec (.sub 0x616) s) = some 0xC2B

/-- R123: the table and SUB are involutions, 0 included, whatever states the two commands run in. -/
def Obligations.SubTwiceAnswersTheBlock : Prop :=
  ∀ s t : State, s.rom = romConstants → t.rom = romConstants →
    (∀ a : FieldElement, romRead s.rom (romRead s.rom a) = a) ∧
    ∀ w r : Block, lastResult (exec (.sub w) s) = some r → lastResult (exec (.sub r) t) = some w

/-- R130: SHIFTF: its encoding and decode faults, its result in bits, its corner cases. -/
def Obligations.ShiftfAnswersTheBottomRowSwapped : Prop :=
  (∀ a b : BitVec 12, decode (0x4#4 ++ a ++ b) =
    if b = 0 then .ok (.shiftf a) else .error .reservedOperandBits) ∧
  (∀ (wa : Block) (s : State), exec (.shiftf wa) s =
    .next { s with responses := s.responses ++ [.done
      (wa.extractLsb' 6 6 ++ wa.extractLsb' 0 3 ++ wa.extractLsb' 3 3)] }) ∧
  (∀ (wa : Block) (s : State), wa.extractLsb' 3 3 = wa.extractLsb' 0 3 →
    lastResult (exec (.shiftf wa) s) = some wa) ∧
  ∀ s : State, lastResult (exec (.shiftf 0xC2B) s) = some 0xC1D

/-- R131: SHIFTI: its own opcode and decode faults, and the same permutation as SHIFTF. -/
def Obligations.ShiftiAnswersWhatShiftfAnswers : Prop :=
  (∀ a b : BitVec 12, decode (0x5#4 ++ a ++ b) =
    if b = 0 then .ok (.shifti a) else .error .reservedOperandBits) ∧
  (∀ (wa : Block) (s : State), exec (.shifti wa) s =
    .next { s with responses := s.responses ++ [.done
      (wa.extractLsb' 6 6 ++ wa.extractLsb' 0 3 ++ wa.extractLsb' 3 3)] }) ∧
  (∀ (wa : Block) (s : State), exec (.shifti wa) s = exec (.shiftf wa) s) ∧
  ∀ s : State, lastResult (exec (.shifti 0xC1D) s) = some 0xC2B

/-- R132: the row shift is self-inverse, and SHIFTI undoes SHIFTF. -/
def Obligations.RowShiftTwiceAnswersTheBlock : Prop :=
  ∀ (s t : State) (w r : Block), lastResult (exec (.shiftf w) s) = some r →
    lastResult (exec (.shiftf r) t) = some w ∧ lastResult (exec (.shifti r) t) = some w

/-- R142: MIXF: its encoding and decode faults, its result row by row, its linearity, its only fixed
point, its corner cases. -/
def Obligations.MixfAnswersTheForwardMatrixTimesEachRow : Prop :=
  (∀ a b : BitVec 12, decode (0x6#4 ++ a ++ b) =
    if b = 0 then .ok (.mixf a) else .error .reservedOperandBits) ∧
  (∀ (c00 c01 c10 c11 : FieldElement) (s : State), s.rom = romConstants →
    exec (.mixf (c00 ++ c01 ++ c10 ++ c11)) s =
      .next { s with responses := s.responses ++ [.done
        (rowSum 1 c00 2 c01 ++ rowSum 2 c00 1 c01 ++ rowSum 1 c10 2 c11 ++ rowSum 2 c10 1 c11)] }) ∧
  (∀ (s : State) (w1 w2 r1 r2 : Block), s.rom = romConstants →
    lastResult (exec (.mixf w1) s) = some r1 → lastResult (exec (.mixf w2) s) = some r2 →
    lastResult (exec (.mixf (w1 ^^^ w2)) s) = some (r1 ^^^ r2)) ∧
  (∀ (s : State) (w : Block), s.rom = romConstants →
    (lastResult (exec (.mixf w) s) = some w ↔ w = 0)) ∧
  ∀ s : State, s.rom = romConstants → lastResult (exec (.mixf 0xFFF) s) = some 0x492 ∧
    lastResult (exec (.mixf 0x924) s) = some 0xFFF ∧ lastResult (exec (.mixf 0xC1D) s) = some 0xDD3

/-- R143: MIXI: its encoding and decode faults, its result row by row, its linearity, its corner cases. -/
def Obligations.MixiAnswersTheInverseMatrixTimesEachRow : Prop :=
  (∀ a b : BitVec 12, decode (0x7#4 ++ a ++ b) =
    if b = 0 then .ok (.mixi a) else .error .reservedOperandBits) ∧
  (∀ (c00 c01 c10 c11 : FieldElement) (s : State), s.rom = romConstants →
    exec (.mixi (c00 ++ c01 ++ c10 ++ c11)) s =
      .next { s with responses := s.responses ++ [.done
        (rowSum 2 c00 4 c01 ++ rowSum 4 c00 2 c01 ++ rowSum 2 c10 4 c11 ++ rowSum 4 c10 2 c11)] }) ∧
  (∀ (s : State) (w1 w2 r1 r2 : Block), s.rom = romConstants →
    lastResult (exec (.mixi w1) s) = some r1 → lastResult (exec (.mixi w2) s) = some r2 →
    lastResult (exec (.mixi (w1 ^^^ w2)) s) = some (r1 ^^^ r2)) ∧
  ∀ s : State, s.rom = romConstants → lastResult (exec (.mixi 0x000) s) = some 0x000 ∧
    lastResult (exec (.mixi 0xFFF) s) = some 0x924 ∧ lastResult (exec (.mixi 0xDD3) s) = some 0xC1D

/-- R144: MIXI undoes MIXF and MIXF undoes MIXI, whatever states the two commands run in. -/
def Obligations.MixesUndoEachOther : Prop :=
  ∀ (s t : State) (w r : Block), s.rom = romConstants → t.rom = romConstants →
    (lastResult (exec (.mixf w) s) = some r → lastResult (exec (.mixi r) t) = some w) ∧
    (lastResult (exec (.mixi w) s) = some r → lastResult (exec (.mixf r) t) = some w)

/-- R150: KEYMIX: its encoding with no reserved bits, its result as one XOR and cell by cell, its
corner cases. -/
def Obligations.KeymixAnswersTheXorOfBlockAndKey : Prop :=
  (∀ a b : BitVec 12, decode (0x8#4 ++ a ++ b) = .ok (.keymix a b)) ∧
  (∀ (wa : Block) (kb : Key) (s : State), exec (.keymix wa kb) s =
    .next { s with responses := s.responses ++ [.done (wa ^^^ kb)] }) ∧
  (∀ (wa : Block) (kb : Key) (r c : Fin 2),
    cell (wa ^^^ kb) r c = cell wa r c ^^^ cell kb r c) ∧
  (∀ (w : Block) (s : State), lastResult (exec (.keymix w 0x000) s) = some w ∧
    lastResult (exec (.keymix w w) s) = some 0x000 ∧
    lastResult (exec (.keymix w 0xFFF) s) = some (~~~w)) ∧
  ∀ s : State, lastResult (exec (.keymix 0xDD3 0x53C) s) = some 0x8EF

/-- R151: KEYMIX with the same key twice gives the block back. -/
def Obligations.KeymixTwiceAnswersTheBlock : Prop :=
  ∀ (s t : State) (w r : Block) (k : Key),
    lastResult (exec (.keymix w k) s) = some r → lastResult (exec (.keymix r k) t) = some w

/-! ## Cipher -/

/-- R160: ENC: its encoding, its result as the composition of the four commands' results, its corner
cases, with exactly the four fixed points under the zero key. -/
def Obligations.EncAnswersTheFourStagesInOrder : Prop :=
  (∀ a b : BitVec 12, decode (0x9#4 ++ a ++ b) = .ok (.enc a b)) ∧
  (∀ (wa : Block) (kb : Key) (s : State), s.rom = romConstants → ∃ sub shift mixed r : Block,
    lastResult (exec (.sub wa) s) = some sub ∧ lastResult (exec (.shiftf sub) s) = some shift ∧
    lastResult (exec (.mixf shift) s) = some mixed ∧ lastResult (exec (.keymix mixed kb) s) = some r ∧
    exec (.enc wa kb) s = .next { s with responses := s.responses ++ [.done r] }) ∧
  (∀ (k : Key) (s : State), s.rom = romConstants → lastResult (exec (.enc 0x000 k) s) = some k) ∧
  (∀ (w : Block) (s : State), s.rom = romConstants →
    (lastResult (exec (.enc w 0x000) s) = some w ↔ w = 0x000 ∨ w = 0x03F ∨ w = 0xFC0 ∨ w = 0xFFF)) ∧
  ∀ s : State, s.rom = romConstants → lastResult (exec (.enc 0xFFF 0xFFF) s) = some 0x000 ∧
    lastResult (exec (.enc 0x616 0x53C) s) = some 0x8EF ∧
    lastResult (exec (.enc 0x8EF 0x53C) s) = some 0x5FD

/-- R161: DEC: its encoding, its result as the composition of the four commands' results, its corner cases. -/
def Obligations.DecAnswersTheFourStagesReversed : Prop :=
  (∀ a b : BitVec 12, decode (0xA#4 ++ a ++ b) = .ok (.dec a b)) ∧
  (∀ (wa : Block) (kb : Key) (s : State), s.rom = romConstants → ∃ unkeyed unmixed unshifted r : Block,
    lastResult (exec (.keymix wa kb) s) = some unkeyed ∧
    lastResult (exec (.mixi unkeyed) s) = some unmixed ∧
    lastResult (exec (.shifti unmixed) s) = some unshifted ∧
    lastResult (exec (.sub unshifted) s) = some r ∧
    exec (.dec wa kb) s = .next { s with responses := s.responses ++ [.done r] }) ∧
  (∀ (k : Key) (s : State), s.rom = romConstants → lastResult (exec (.dec k k) s) = some 0x000) ∧
  ∀ s : State, s.rom = romConstants → lastResult (exec (.dec 0x000 0x000) s) = some 0x000 ∧
    lastResult (exec (.dec 0x001 0x000) s) = some 0x02F ∧
    lastResult (exec (.enc 0x001 0x000) s) = some 0x00A ∧
    lastResult (exec (.dec 0x8EF 0x53C) s) = some 0x616

/-- R162: decryption undoes encryption for every block and key, and encryption undoes decryption,
whatever states the two commands run in. -/
def Obligations.DecryptionAndEncryptionUndoEachOther : Prop :=
  ∀ (s t : State) (b r : Block) (k : Key), s.rom = romConstants → t.rom = romConstants →
    (lastResult (exec (.enc b k) s) = some r → lastResult (exec (.dec r k) t) = some b) ∧
    (lastResult (exec (.dec b k) s) = some r → lastResult (exec (.enc r k) t) = some b)

/-- R163: the key enters once, at the KEYMIX stage: with another key the ciphertext differs by the
XOR of the keys, and decryption sees only the XOR of ciphertext and key. Nothing of the state but the
constants enters: no chaining. -/
def Obligations.TheKeyEntersOnceAndNothingIsChained : Prop :=
  ∀ (s t : State) (w c : Block) (k k' : Key), s.rom = t.rom →
    (∀ r, lastResult (exec (.enc w k) s) = some r →
      lastResult (exec (.enc w k') t) = some (r ^^^ k ^^^ k')) ∧
    lastResult (exec (.dec c k) s) = lastResult (exec (.dec (c ^^^ k ^^^ k') k') t)

/-- R164: the entry encryptBlock: the key is checked first, then the block, then it is ENC of the two values. -/
def Obligations.EncryptBlockChecksTheKeyThenTheBlockThenEncrypts : Prop :=
  ∀ (s : State) (block key : Nat),
    (key > 4095 → serveTransaction (.encryptBlock block key) s =
      .next { s with responses := s.responses ++ [.error .invalidKeyLength] }) ∧
    (key ≤ 4095 → block > 4095 → serveTransaction (.encryptBlock block key) s =
      .next { s with responses := s.responses ++ [.error .invalidBlockValue] }) ∧
    (key ≤ 4095 → block ≤ 4095 → serveTransaction (.encryptBlock block key) s =
      exec (.enc (BitVec.ofNat 12 block) (BitVec.ofNat 12 key)) s)

/-- R165: the entry decryptBlock: the key is checked first, then the block, then it is DEC of the two values. -/
def Obligations.DecryptBlockChecksTheKeyThenTheBlockThenDecrypts : Prop :=
  ∀ (s : State) (block key : Nat),
    (key > 4095 → serveTransaction (.decryptBlock block key) s =
      .next { s with responses := s.responses ++ [.error .invalidKeyLength] }) ∧
    (key ≤ 4095 → block > 4095 → serveTransaction (.decryptBlock block key) s =
      .next { s with responses := s.responses ++ [.error .invalidBlockValue] }) ∧
    (key ≤ 4095 → block ≤ 4095 → serveTransaction (.decryptBlock block key) s =
      exec (.dec (BitVec.ofNat 12 block) (BitVec.ofNat 12 key)) s)

/-! ## Responses and errors -/

/-- R200, R61: the status values, no other value is ever produced, and a result stands in a response
exactly when its status is OK. -/
def Obligations.StatusValuesAreTheTables : Prop :=
  (∀ r : Block, (Response.done r).statusBits = 0) ∧
  (Response.error .invalidKeyLength).statusBits = 1 ∧
  (Response.error .invalidBlockValue).statusBits = 2 ∧
  (Response.error .reservedOpcode).statusBits = 3 ∧
  (Response.error .reservedOperandBits).statusBits = 4 ∧
  (∀ x : Response, x.statusBits.toNat ≤ 4) ∧
  ∀ x : Response, x.result?.isSome ↔ x.statusBits = 0

/-- R205: the command port raises only the decoder's two errors and the entries only the range
errors, each transaction one response, with the opcode before the operand bits and the key before
the block. -/
def Obligations.ErrorsAreRaisedInTheOrderOfPriority : Prop :=
  (∀ (cmd : Command) (s : State), ∃ r : Response,
    serveTransaction (.command cmd) s = .next { s with responses := s.responses ++ [r] } ∧
    (r = .error .reservedOpcode ↔ 0xB ≤ (cmd.extractLsb' 24 4).toNat) ∧
    (r = .error .reservedOperandBits ↔
      (cmd.extractLsb' 24 4).toNat < 0xB ∧ ∀ row ∈ opcodeTable, cmd &&& row.mask ≠ row.pattern) ∧
    r ≠ .error .invalidKeyLength ∧ r ≠ .error .invalidBlockValue) ∧
  ∀ (block key : Nat) (s : State), ∀ t ∈ [Transaction.encryptBlock block key, .decryptBlock block key],
    ∃ r : Response,
      serveTransaction t s = .next { s with responses := s.responses ++ [r] } ∧
      (r = .error .invalidKeyLength ↔ key > 4095) ∧
      (r = .error .invalidBlockValue ↔ key ≤ 4095 ∧ block > 4095) ∧
      r ≠ .error .reservedOpcode ∧ r ≠ .error .reservedOperandBits

/-- R206: an error response changes nothing of the CORE: the next transaction is answered as if the failed
one had not been issued. That the failed one stays in an error record is the model's choice (log entry 6):
R206 says only that a model may keep such a record. -/
def Obligations.AnErrorLeavesTheNextTransactionAsItWas : Prop :=
  ∀ (s t : State) (a b : Accepted) (rest : List Event) (e : ErrorKind),
    s.accepted.length = s.responses.length → s.pending = a.present :: b.present :: rest →
    step s = .next t → t.responses = s.responses ++ [.error e] →
    t.rom = s.rom ∧ t.errorRecord = s.errorRecord ++ [(a, .error e)] ∧
    ∃ r u v, step t = .next u ∧ step { s with pending := b.present :: rest } = .next v ∧
      u.responses = s.responses ++ [.error e, r] ∧ v.responses = s.responses ++ [r]

/-- R207, R111: once decoded, no operation raises an error, faults or is refused; its frame: one more
response and nothing else. It covers GFADD, GFMUL, GFINV, SUB, SHIFTF, SHIFTI, MIXF, MIXI, KEYMIX, ENC, DEC. -/
def Obligations.EveryDecodedOperationAnswersOkAndChangesNothingElse : Prop :=
  (∀ (i : Instr) (s : State), ∃ r : Block,
    exec i s = .next { s with responses := s.responses ++ [.done r] }) ∧
  ∀ s : State, s.rom = romConstants → lastResult (exec (.gfinv 0) s) = some 0

/-- The machine agrees with the spec's per-cell equations (`specResult`) on every instruction. -/
def Obligations.ExecAgreesWithTheSpecsEquations : Prop :=
  ∀ (i : Instr) (s : State), s.rom = romConstants →
    exec i s = .next { s with responses := s.responses ++ [.done (specResult i)] }

/-! ## The step -/

/-- A step on a transaction samples it and serves it; on a command word that decodes it runs the word's
instruction. (The list of pending events and the record of what has been sampled are the model's, log
entries 2 and 6.) -/
def Obligations.StepSamplesTheWordAndRunsItsInstruction : Prop :=
  (∀ (s : State) (a : Accepted) (rest : List Event), s.pending = a.present :: rest →
    step s = serveTransaction a.transaction { s with pending := rest, accepted := s.accepted ++ [a] }) ∧
  ∀ (s : State) (host : Nat) (cmd : Command) (rest : List Event) (i : Instr),
    s.pending = .request ⟨host, Call.ofWord cmd⟩ :: rest → decode cmd = .ok i →
    step s = exec i { s with pending := rest, accepted := s.accepted ++ [⟨host, .command cmd⟩] }

/-- The word a table row describes, stored where the step looks next, is what the step runs (host 0 and the
placing from outside are the model's choice, log entry 12). -/
def Obligations.StepRunsTheWordPlacedNext : Prop :=
  ∀ (s : State) (nbits w : Nat) (i : Instr), decodeTableWord nbits w = some i →
    step (s.withFetchWord nbits w) =
      exec i { s with accepted := s.accepted ++ [⟨0, .command (BitVec.ofNat 28 (w % 2 ^ nbits))⟩] }

/-- R20: with nothing pending the CORE takes no step of its own (the model's choice: the state stays as it
is, log entry 4). -/
def Obligations.NothingHappensWhileNothingIsPending : Prop :=
  ∀ s : State, s.pending = [] → step s = .next s

/-- R74, R235: `rN` stands for the result word of the host's `N`-th response, in either operand of a
command and of both entries; an error response has none (R206), and a response that is not there cannot be
used. The model's choice: how names count (log entry 7); the two faults, the order of lookup, and that the
whole MODEL stops where the spec has only that host stuck (log entry 8); names in the entries, as the value
of the word (log entry 9). -/
def Obligations.ResultNamesStandForTheHostsOwnResults : Prop :=
  (∀ op : BitVec 4, NamesStandForResults id (Call.command op)) ∧
  NamesStandForResults BitVec.toNat Call.encryptBlock ∧
  NamesStandForResults BitVec.toNat Call.decryptBlock

/-! ## Runs and hosts -/

/-- R47: every operation is idempotent: the same transaction, from whichever hosts, gets the same
response again. -/
def Obligations.RepeatingATransactionRepeatsItsResponse : Prop :=
  ∀ (s : State) (a b : Accepted) (rest : List Event), a.transaction = b.transaction →
    s.pending = a.present :: b.present :: rest →
    ∃ r t u, step s = .next t ∧ step t = .next u ∧
      t.responses = s.responses ++ [r] ∧ u.responses = s.responses ++ [r, r]

/-- R234: a run answers every transaction, one response each, in the order they were issued. That what is
issued is a list, and that one step samples and answers, is the model's choice (log entries 2 and 3). -/
def Obligations.ARunAnswersEveryTransactionInOrder : Prop :=
  ∀ (s : State) (issued : List Accepted) (rest : List Event), s.rom = romConstants →
    s.pending = issued.map Accepted.present ++ rest →
    Host.Core.run core issued.length s = .next { s with
      pending := rest
      accepted := s.accepted ++ issued
      responses := s.responses ++ issued.map (fun a => specResponse a.transaction) }

/-- R234, R50, R74, R231: a run of any events (requests with operands `rN`, resets): it completes exactly when
every name has a value for its own host; it samples each request, answers each with the one response of its
own fields, in order, and gives each host what `hostResponses` computes from that host's calls alone; a
fault is that of some host. The list of events, one step each, how names count, their faults and names in
the entries, and that a reset keeps the history are the model's choice (log entries 2, 3, 5, 7, 8, 9). -/
def Obligations.ARunGivesEachHostTheResponsesOfItsOwnCalls : Prop :=
  ∀ (s : State) (events rest : List Event), s.rom = romConstants →
    s.accepted.length = s.responses.length → s.pending = events ++ rest →
    ((∃ t, Host.Core.run core events.length s = .next t) ↔ ∀ host : Nat, ∃ answers : List Response,
      hostResponses (callsOf host events) (s.responsesOf host) = .ok answers) ∧
    (∀ t, Host.Core.run core events.length s = .next t → ∃ sampled : List Accepted,
      sampled.map Accepted.host = issuers events ∧
      t = { s with
        pending := rest
        accepted := s.accepted ++ sampled
        responses := s.responses ++ sampled.map (fun a => specResponse a.transaction) } ∧
      ∀ host : Nat,
        hostResponses (callsOf host events) (s.responsesOf host) = .ok (t.responsesOf host)) ∧
    ∀ f, Host.Core.run core events.length s = .fault f → ∃ host : Nat,
      hostResponses (callsOf host events) (s.responsesOf host) = .error f

/-- R50: two interleavings of the same commands of each host give each host the same responses, in its
issue order. -/
def Obligations.InterleavingDoesNotChangeAHostsResponses : Prop :=
  ∀ (s : State) (issued issued' : List Accepted), s.rom = romConstants →
    s.accepted.length = s.responses.length →
    (∀ host : Nat, issued.filter (fun a => a.host == host) = issued'.filter (fun a => a.host == host)) →
    ∃ t t' : State,
      Host.Core.run core issued.length { s with pending := issued.map Accepted.present } = .next t ∧
      Host.Core.run core issued'.length { s with pending := issued'.map Accepted.present } = .next t' ∧
      ∀ host : Nat, t.responsesOf host = t'.responsesOf host ∧
        t.responsesOf host = s.responsesOf host ++
          (issued.filter (fun a => a.host == host)).map (fun a => specResponse a.transaction)

/-- R50 with operands `rN` (R74) and resets between requests: where the calls of every host are the same and
every name has a value, both interleavings run to their end and give each host the same responses, a
function of its own calls. How names count, and that a reset keeps the history, is the model's choice (log
entries 5, 7, 8 and 9). -/
def Obligations.InterleavingDoesNotChangeTheResultsOfNames : Prop :=
  ∀ (s : State) (events events' : List Event) (answers : Nat → List Response), s.rom = romConstants →
    s.accepted.length = s.responses.length →
    (∀ host : Nat, callsOf host events = callsOf host events') →
    (∀ host : Nat, hostResponses (callsOf host events) (s.responsesOf host) = .ok (answers host)) →
    ∃ t t' : State,
      Host.Core.run core events.length { s with pending := events } = .next t ∧
      Host.Core.run core events'.length { s with pending := events' } = .next t' ∧
      ∀ host : Nat, t.responsesOf host = answers host ∧ t'.responsesOf host = answers host

/-- A host sees only its own responses: a request of another host does not change them, and its own
request (operands `rN` included) has the same outcome for it in any two states that look alike to it.
(How names `rN` count is the model's choice, log entry 7.) -/
def Obligations.AHostCannotObserveAnother : Prop :=
  ∀ (s s' : State) (host : Nat) (q : Request) (rest rest' : List Event), s.Inv → s'.Inv →
    s.pending = .request q :: rest → s'.pending = .request q :: rest' →
    s.responsesOf host = s'.responsesOf host →
    (q.host ≠ host → ∀ t, step s = .next t → t.responsesOf host = s.responsesOf host) ∧
    (q.host = host → (∀ t, step s = .next t →
        ∃ t', step s' = .next t' ∧ t.responsesOf host = t'.responsesOf host) ∧
      ∀ f, step s = .fault f → step s' = .fault f)

/-- R233: hosts that keep their duties (words of the opcode map, entry values up to 4095) run without
an error in the record. The record is the model's choice (log entry 6). -/
def Obligations.HostsThatKeepTheirDutiesGetNoError : Prop :=
  ∀ (s : State) (issued : List Accepted), s.Inv → s.errorRecord = [] →
    s.pending = issued.map Accepted.present → (∀ a ∈ issued, a.transaction.dutiful = true) →
    SafeRun issued.length s

/-- R233 with operands `rN` (R74) and resets between requests: where every call of every host names only
values that exist and presents what its duties allow, the run completes without an error in the record. The
record, how names count and their faults, names in the entries, and that a reset keeps the history are the
model's choice (log entries 5 to 9). -/
def Obligations.DutifulCallsWithResultNamesGetNoError : Prop :=
  ∀ s : State, s.Inv → s.errorRecord = [] →
    (∀ host : Nat, dutifulCalls (callsOf host s.pending) (s.responsesOf host) = true) →
    SafeRun s.pending.length s

/-! ## The assembler syntax -/

/-- R74: the text written for any instruction assembles to the call that presents its word. -/
def Obligations.AssemblingTheTextOfAnInstructionGivesItsWord : Prop :=
  ∀ i : Instr, assemble (disassemble i) = some (Call.ofWord (encode i))

/-- R75: no pseudo-instruction: a text that assembles names an operation and gets that operation's opcode.
`shifti` is never folded into `shiftf`: with any text after the mnemonic, both are refused, or both assemble
with the same operand, each with its own opcode; a name `rN`, a literal of any base (decimal, hex, binary)
and the text `disassemble` writes do assemble. The two operations compute the same permutation. Which
spellings are read and which literals are refused is the model's choice (log entry 15). -/
def Obligations.ShiftiIsNeverAssembledAsShiftf : Prop :=
  (∀ (text : List Char) (c : Call), assemble text = some c → ∃ (i : Instr) (x y : Operand (BitVec 12)),
    (cutAt ' ' (skipSpaces text)).1 = mnemonicText i ∧ c = .command (opcodeOf i) x y) ∧
  (∀ text : List Char,
    (assemble ("shifti ".toList ++ text) = none ∧ assemble ("shiftf ".toList ++ text) = none) ∨
    ∃ x, assemble ("shifti ".toList ++ text) = some (.command 0x5 x (.lit 0)) ∧
      assemble ("shiftf ".toList ++ text) = some (.command 0x4 x (.lit 0))) ∧
  (∀ (digits : List Char) (n : Nat), number 10 digits = some n →
    assemble ("shifti r".toList ++ digits) = some (.command 0x5 (.result n) (.lit 0))) ∧
  (∀ (digits : List Char) (n : Nat), literal digits = some n → n ≤ 4095 →
    assemble ("shifti ".toList ++ digits) = some (.command 0x5 (.lit (BitVec.ofNat 12 n)) (.lit 0))) ∧
  (∀ w : Block, assemble (disassemble (.shifti w)) = some (.command 0x5 (.lit w) (.lit 0)) ∧
    assemble (disassemble (.shiftf w)) = some (.command 0x4 (.lit w) (.lit 0))) ∧
  ∀ (w : Block) (s : State), exec (.shifti w) s = exec (.shiftf w) s
end

