-- ==== Sys2Proof/Laws/Assembler.lean ====
section
/-! SUPPORT. Digits and spaces of the assembler syntax. -/

namespace Sys2Proof.Machine

/-- A written digit reads as its value. -/
@[simp] theorem digitValue_hexDigit (n : BitVec 4) : digitValue (hexDigit n) = some n.toNat := by
  revert n; decide

/-- No digit is a space. -/
theorem hexDigit_ne_space (n : BitVec 4) : hexDigit n ≠ ' ' := by
  revert n; decide

/-- No digit is a comma. -/
theorem hexDigit_ne_comma (n : BitVec 4) : hexDigit n ≠ ',' := by
  revert n; decide

/-- Text that begins with no space keeps its beginning. -/
theorem skipSpaces_cons_of_ne {c : Char} (cs : List Char) (ne : c ≠ ' ') :
    skipSpaces (c :: cs) = c :: cs := by
  unfold skipSpaces
  split
  · simp_all
  · rfl

/-- A written field operand reads as its word. -/
theorem operandText_fieldText (f : FieldElement) :
    operandText 7 (fieldText f) = some (.lit (fieldWord f)) := by
  revert f; decide

end Sys2Proof.Machine
end

