-- ==== Sys2Proof/Laws/Block.lean ====
section
/-! SUPPORT. Cells and blocks (20_memory.md R40): reading a packed cell, packing the cells read, and what
the cell-wise loops do to a packed word. -/

namespace Sys2Proof.Machine

variable (c00 c01 c10 c11 d00 d01 d10 d11 : FieldElement)

@[simp] theorem cell_pack_00 : cell (pack c00 c01 c10 c11) 0 0 = c00 := by
  unfold cell pack
  simp only [Fin.val_zero, Nat.mul_zero, Nat.add_zero, Nat.sub_zero]
  rw [BitVec.extractLsb'_append_eq_of_le (by omega), BitVec.extractLsb'_append_eq_of_le (by omega),
    BitVec.extractLsb'_append_eq_of_le (by omega)]
  exact BitVec.extractLsb'_eq_self

@[simp] theorem cell_pack_01 : cell (pack c00 c01 c10 c11) 0 1 = c01 := by
  unfold cell pack
  rw [show 9 - 3 * (2 * (0 : Fin 2).val + (1 : Fin 2).val) = 6 from rfl,
    BitVec.extractLsb'_append_eq_of_le (by omega), BitVec.extractLsb'_append_eq_of_le (by omega),
    BitVec.extractLsb'_append_eq_of_add_le (by omega)]
  exact BitVec.extractLsb'_eq_self

@[simp] theorem cell_pack_10 : cell (pack c00 c01 c10 c11) 1 0 = c10 := by
  unfold cell pack
  rw [show 9 - 3 * (2 * (1 : Fin 2).val + (0 : Fin 2).val) = 3 from rfl,
    BitVec.extractLsb'_append_eq_of_le (by omega), BitVec.extractLsb'_append_eq_of_add_le (by omega)]
  exact BitVec.extractLsb'_eq_self

@[simp] theorem cell_pack_11 : cell (pack c00 c01 c10 c11) 1 1 = c11 := by
  unfold cell pack
  rw [show 9 - 3 * (2 * (1 : Fin 2).val + (1 : Fin 2).val) = 0 from rfl,
    BitVec.extractLsb'_append_eq_of_add_le (by omega)]
  exact BitVec.extractLsb'_eq_self

/-- Packing the cells of a word gives the word. -/
theorem pack_cells (w : Block) :
    pack (cell w 0 0) (cell w 0 1) (cell w 1 0) (cell w 1 1) = w := by
  apply BitVec.eq_of_getLsbD_eq
  intro i bound
  simp only [pack, cell, BitVec.getLsbD_append, BitVec.getLsbD_extractLsb']
  interval_cases i <;> simp

/-- Every word is packed from its cells: the case split for a statement about all words. -/
theorem exists_pack (w : Block) : ∃ c00 c01 c10 c11, w = pack c00 c01 c10 c11 :=
  ⟨_, _, _, _, (pack_cells w).symm⟩

@[simp] theorem mapCells_pack (f : FieldElement → FieldElement) :
    mapCells f (pack c00 c01 c10 c11) = pack (f c00) (f c01) (f c10) (f c11) := by
  simp [mapCells]

@[simp] theorem zipCells_pack (f : FieldElement → FieldElement → FieldElement) :
    zipCells f (pack c00 c01 c10 c11) (pack d00 d01 d10 d11) =
      pack (f c00 d00) (f c01 d01) (f c10 d10) (f c11 d11) := by
  simp [zipCells]

@[simp] theorem mapRows_pack (f : FieldElement → FieldElement → FieldElement × FieldElement) :
    mapRows f (pack c00 c01 c10 c11) =
      pack (f c00 c01).1 (f c00 c01).2 (f c10 c11).1 (f c10 c11).2 := by
  simp [mapRows]

/-- XOR of packed words is the XOR of their cells. -/
theorem pack_xor_pack :
    pack c00 c01 c10 c11 ^^^ pack d00 d01 d10 d11 =
      pack (c00 ^^^ d00) (c01 ^^^ d01) (c10 ^^^ d10) (c11 ^^^ d11) := by
  have wide : ((c00 ++ c01 ++ c10 ++ c11) ^^^ (d00 ++ d01 ++ d10 ++ d11) : BitVec (3 + 3 + 3 + 3)) =
      (c00 ^^^ d00) ++ (c01 ^^^ d01) ++ (c10 ^^^ d10) ++ (c11 ^^^ d11) := by
    rw [BitVec.xor_append, BitVec.xor_append, BitVec.xor_append]
  exact wide

end Sys2Proof.Machine
end

