-- ==== Sys2Proof/Laws/Decode.lean ====
section
/-! SUPPORT. The fields of a command word and of an operand field: what was put in is what is read out. -/

namespace Sys2Proof

/-- The opcode of an assembled word. -/
@[simp] theorem opField_commandWord (op : BitVec 4) (a b : BitVec 12) :
    opField (commandWord op a b) = op := by
  unfold opField commandWord
  rw [BitVec.extractLsb'_append_eq_of_le (by omega), BitVec.extractLsb'_append_eq_of_le (by omega)]
  exact BitVec.extractLsb'_eq_self

/-- The A field of an assembled word. -/
@[simp] theorem aField_commandWord (op : BitVec 4) (a b : BitVec 12) :
    aField (commandWord op a b) = a := by
  unfold aField commandWord
  rw [BitVec.extractLsb'_append_eq_of_le (by omega), BitVec.extractLsb'_append_eq_of_add_le (by omega)]
  exact BitVec.extractLsb'_eq_self

/-- The B field of an assembled word. -/
@[simp] theorem bField_commandWord (op : BitVec 4) (a b : BitVec 12) :
    bField (commandWord op a b) = b := by
  unfold bField commandWord
  rw [BitVec.extractLsb'_append_eq_of_add_le (by omega)]
  exact BitVec.extractLsb'_eq_self

/-- A word is its three fields (R60). -/
theorem commandWord_fields (cmd : Command) :
    commandWord (opField cmd) (aField cmd) (bField cmd) = cmd := by
  apply BitVec.eq_of_getLsbD_eq
  intro i bound
  simp only [commandWord, opField, aField, bField, BitVec.getLsbD_append, BitVec.getLsbD_extractLsb']
  split
  · simp [*]
  · split
    · simp [*, show 12 + (i - 12) = i by omega]
    · simp [show i - 12 - 12 < 4 by omega, show 24 + (i - 12 - 12) = i by omega]

/-- The field operand of a field's word. -/
@[simp] theorem fieldOperand_fieldWord (f : FieldElement) : fieldOperand (fieldWord f) = f := by
  revert f; decide

/-- The reserved bits of a field's word. -/
@[simp] theorem reservedHigh_fieldWord (f : FieldElement) : reservedHigh (fieldWord f) = 0 := by
  revert f; decide

/-- An operand field whose reserved bits are zero is the word of its field operand. -/
theorem fieldWord_fieldOperand {x : BitVec 12} (clear : reservedHigh x = 0) :
    fieldWord (fieldOperand x) = x := by
  have high : x.extractLsb' 3 9 ++ x.extractLsb' 0 3 = fieldWord (fieldOperand x) := by
    rw [show x.extractLsb' 3 9 = 0#9 from clear]; rfl
  rw [← high]
  apply BitVec.eq_of_getLsbD_eq
  intro i bound
  simp only [BitVec.getLsbD_append, BitVec.getLsbD_extractLsb']
  split
  · simp [*]
  · simp [show i - 3 < 9 by omega, show 3 + (i - 3) = i by omega]

namespace Machine

/-- A word presented as it stands is sampled as it stands. -/
@[simp] theorem resolveCall_ofWord (answers : List Response) (cmd : Command) :
    resolveCall answers (Call.ofWord cmd) = .ok (.command cmd) := by
  simp [Call.ofWord, resolveCall, operandValues, operandValue, commandWord_fields]

/-- A transaction presented as it stands is sampled as it stands. -/
@[simp] theorem resolveCall_ofTransaction (answers : List Response) (t : Transaction) :
    resolveCall answers (Call.ofTransaction t) = .ok t := by
  cases t with
  | command cmd => exact resolveCall_ofWord answers cmd
  | encryptBlock block key => rfl
  | decryptBlock block key => rfl

end Machine

end Sys2Proof
end

