-- ==== Sys2Proof/Laws/Field.lean ====
section
/-! SUPPORT. The field functions over the constants of the CORE: small closed facts over 3-bit values. -/

namespace Sys2Proof.Machine

/-- The product distributes over a sum on the right. -/
theorem gmul_xor (a b c : FieldElement) :
    gmul polynomial a (b ^^^ c) = gmul polynomial a b ^^^ gmul polynomial a c := by
  revert a b c; decide

/-- R120: the table holds the inverses. -/
theorem romRead_eq_ginv (a : FieldElement) : romRead romConstants a = ginv polynomial a := by
  revert a; decide

/-- R123, at one cell. -/
theorem romRead_romRead (a : FieldElement) : romRead romConstants (romRead romConstants a) = a := by
  revert a; decide

/-- R142, at one row. -/
theorem mixPair_forward (u v : FieldElement) :
    mixPair polynomial forwardMatrix u v = (u ^^^ gmul polynomial 2 v, gmul polynomial 2 u ^^^ v) := by
  revert u v; decide

/-- R144, at one row. -/
theorem mixPair_inverse_forward (u v : FieldElement) :
    mixPair polynomial inverseMatrix (mixPair polynomial forwardMatrix u v).1
      (mixPair polynomial forwardMatrix u v).2 = (u, v) := by
  revert u v; decide

/-- R144, at one row, the other order. -/
theorem mixPair_forward_inverse (u v : FieldElement) :
    mixPair polynomial forwardMatrix (mixPair polynomial inverseMatrix u v).1
      (mixPair polynomial inverseMatrix u v).2 = (u, v) := by
  revert u v; decide

end Sys2Proof.Machine
end

