-- ==== Sys2Proof/Laws/PerInstr.lean ====
section
/-! SUPPORT. What holds of every instruction as syntax, one lemma per constructor. Family EncodedInRow: the
word of an instruction lies in the row of spec/opcode_table.json that bears its mnemonic. -/

namespace Sys2Proof

/-- Masking an assembled word masks its fields. -/
theorem commandWord_and (op mop : BitVec 4) (a ma b mb : BitVec 12) :
    commandWord op a b &&& commandWord mop ma mb = commandWord (op &&& mop) (a &&& ma) (b &&& mb) := by
  have wide : ((op ++ a ++ b) &&& (mop ++ ma ++ mb) : BitVec (4 + 12 + 12)) =
      (op &&& mop) ++ (a &&& ma) ++ (b &&& mb) := by
    rw [BitVec.and_append, BitVec.and_append]
  exact wide

/-- A word lies in a row when its three fields do. -/
theorem holdsWord_commandWord (mnemonic : String) (format : Format) (op mop pop : BitVec 4)
    (a ma pa b mb pb : BitVec 12) (ops : op &&& mop = pop) (as : a &&& ma = pa) (bs : b &&& mb = pb) :
    OpcodeRow.holdsWord ⟨mnemonic, format, commandWord pop pa pb, commandWord mop ma mb⟩
      (commandWord op a b) = true := by
  simp [OpcodeRow.holdsWord, commandWord_and, ops, as, bs]

/-- A field operand sets no reserved bit. -/
theorem fieldWord_and_reserved (f : FieldElement) : fieldWord f &&& 0xFF8#12 = 0 := by
  revert f; decide

namespace Laws.EncodedInRow

/-- The mnemonic of the instruction's row. -/
def rowName : Instr → String
  | .gfadd _ _ => "GFADD"
  | .gfmul _ _ => "GFMUL"
  | .gfinv _ => "GFINV"
  | .sub _ => "SUB"
  | .shiftf _ => "SHIFTF"
  | .shifti _ => "SHIFTI"
  | .mixf _ => "MIXF"
  | .mixi _ => "MIXI"
  | .keymix _ _ => "KEYMIX"
  | .enc _ _ => "ENC"
  | .dec _ _ => "DEC"

/-- The instruction's word lies in its row. -/
def Statement (i : Instr) : Prop :=
  ∃ row ∈ opcodeTable, row.mnemonic = rowName i ∧ row.holdsWord (encode i) = true

theorem gfadd (fa fb : FieldElement) : Statement (.gfadd fa fb) :=
  ⟨_, .head _, rfl, holdsWord_commandWord "GFADD" .ff2 0x0 0xF 0x0 _ 0xFF8 0 _ 0xFF8 0 rfl
    (fieldWord_and_reserved fa) (fieldWord_and_reserved fb)⟩

theorem gfmul (fa fb : FieldElement) : Statement (.gfmul fa fb) :=
  ⟨_, .tail _ (.head _), rfl, holdsWord_commandWord "GFMUL" .ff2 0x1 0xF 0x1 _ 0xFF8 0 _ 0xFF8 0 rfl
    (fieldWord_and_reserved fa) (fieldWord_and_reserved fb)⟩

theorem gfinv (fa : FieldElement) : Statement (.gfinv fa) :=
  ⟨_, .tail _ (.tail _ (.head _)), rfl,
    holdsWord_commandWord "GFINV" .ff1 0x2 0xF 0x2 _ 0xFF8 0 0 0xFFF 0 rfl (fieldWord_and_reserved fa) rfl⟩

/-- The shape of the five FB1 rows: one block operand, B zero. -/
theorem holdsWord_fb1 (name : String) (op : BitVec 4) (wa : Block) :
    OpcodeRow.holdsWord ⟨name, .fb1, commandWord op 0 0, 0xF000FFF#28⟩ (commandWord op wa 0) = true :=
  holdsWord_commandWord name .fb1 op 0xF op wa 0 0 0 0xFFF 0 (BitVec.and_allOnes (x := op)) BitVec.and_zero rfl

/-- The shape of the three FB2 rows: every bit but the opcode's is an operand bit. -/
theorem holdsWord_fb2 (name : String) (op : BitVec 4) (wa : Block) (kb : Key) :
    OpcodeRow.holdsWord ⟨name, .fb2, commandWord op 0 0, 0xF000000#28⟩ (commandWord op wa kb) = true :=
  holdsWord_commandWord name .fb2 op 0xF op wa 0 0 kb 0 0 (BitVec.and_allOnes (x := op)) BitVec.and_zero
    BitVec.and_zero

theorem sub (wa : Block) : Statement (.sub wa) :=
  ⟨⟨"SUB", .fb1, 0x3000000#28, 0xF000FFF#28⟩, by decide, rfl, holdsWord_fb1 "SUB" 0x3 wa⟩

theorem shiftf (wa : Block) : Statement (.shiftf wa) :=
  ⟨⟨"SHIFTF", .fb1, 0x4000000#28, 0xF000FFF#28⟩, by decide, rfl, holdsWord_fb1 "SHIFTF" 0x4 wa⟩

theorem shifti (wa : Block) : Statement (.shifti wa) :=
  ⟨⟨"SHIFTI", .fb1, 0x5000000#28, 0xF000FFF#28⟩, by decide, rfl, holdsWord_fb1 "SHIFTI" 0x5 wa⟩

theorem mixf (wa : Block) : Statement (.mixf wa) :=
  ⟨⟨"MIXF", .fb1, 0x6000000#28, 0xF000FFF#28⟩, by decide, rfl, holdsWord_fb1 "MIXF" 0x6 wa⟩

theorem mixi (wa : Block) : Statement (.mixi wa) :=
  ⟨⟨"MIXI", .fb1, 0x7000000#28, 0xF000FFF#28⟩, by decide, rfl, holdsWord_fb1 "MIXI" 0x7 wa⟩

theorem keymix (wa : Block) (kb : Key) : Statement (.keymix wa kb) :=
  ⟨⟨"KEYMIX", .fb2, 0x8000000#28, 0xF000000#28⟩, by decide, rfl, holdsWord_fb2 "KEYMIX" 0x8 wa kb⟩

theorem enc (wa : Block) (kb : Key) : Statement (.enc wa kb) :=
  ⟨⟨"ENC", .fb2, 0x9000000#28, 0xF000000#28⟩, by decide, rfl, holdsWord_fb2 "ENC" 0x9 wa kb⟩

theorem dec (wa : Block) (kb : Key) : Statement (.dec wa kb) :=
  ⟨⟨"DEC", .fb2, 0xA000000#28, 0xF000000#28⟩, by decide, rfl, holdsWord_fb2 "DEC" 0xA wa kb⟩

end Laws.EncodedInRow

end Sys2Proof
end

