-- ==== Sys2Proof/Laws/State.lean ====
section
/-! SUPPORT. What each update of the state does to each field, and what the two endings of a command
answer, so that no later proof unfolds a record update. -/

namespace Sys2Proof.Machine

variable (s : State) (host : Nat) (t : Transaction) (r : Response)

@[simp] theorem State.respond_rom : (s.respond r).rom = s.rom := rfl
@[simp] theorem State.respond_pending : (s.respond r).pending = s.pending := rfl
@[simp] theorem State.respond_accepted : (s.respond r).accepted = s.accepted := rfl
@[simp] theorem State.respond_responses : (s.respond r).responses = s.responses ++ [r] := rfl

@[simp] theorem State.accept_rom : (s.accept host t).rom = s.rom := rfl
@[simp] theorem State.accept_pending : (s.accept host t).pending = s.pending := rfl
@[simp] theorem State.accept_accepted :
    (s.accept host t).accepted = s.accepted ++ [⟨host, t⟩] := rfl
@[simp] theorem State.accept_responses : (s.accept host t).responses = s.responses := rfl

@[simp] theorem State.withFetchWord_rom (nbits w : Nat) : (s.withFetchWord nbits w).rom = s.rom := rfl
@[simp] theorem State.withFetchWord_accepted (nbits w : Nat) :
    (s.withFetchWord nbits w).accepted = s.accepted := rfl
@[simp] theorem State.withFetchWord_responses (nbits w : Nat) :
    (s.withFetchWord nbits w).responses = s.responses := rfl
@[simp] theorem State.withFetchWord_pending (nbits w : Nat) :
    (s.withFetchWord nbits w).pending =
      .request ⟨0, Call.ofWord (BitVec.ofNat 28 (w % 2 ^ nbits))⟩ :: s.pending := rfl

/-! What waits enters none of the records. -/

@[simp] theorem State.history_pending (pending : List Event) :
    State.history { s with pending := pending } = s.history := rfl
@[simp] theorem State.responsesOf_pending (pending : List Event) (h : Nat) :
    State.responsesOf h { s with pending := pending } = s.responsesOf h := rfl
@[simp] theorem State.errorRecord_pending (pending : List Event) :
    State.errorRecord { s with pending := pending } = s.errorRecord := rfl

/-- A command that completes answers its result and changes nothing else. -/
theorem complete_eq_next (w : Block) :
    complete w s = .next { s with responses := s.responses ++ [.done w] } := rfl

/-- A command that raises answers the status and changes nothing else. -/
theorem raise_eq_next (e : ErrorKind) :
    raise e s = .next { s with responses := s.responses ++ [.error e] } := rfl

/-- One more sampled transaction with its response is one more entry at the end of the history. -/
theorem history_snoc (rom : Rom) (pending : List Event) (accepted : List Accepted)
    (responses : List Response) (a : Accepted) (answered : accepted.length = responses.length) :
    State.history ⟨rom, pending, accepted ++ [a], responses ++ [r]⟩ =
      State.history ⟨rom, pending, accepted, responses⟩ ++ [(a, r)] := by
  simp [State.history, List.zip_append answered]

/-- One more answered transaction adds its response to its own host's responses, and to no other's. -/
theorem responsesOf_snoc (rom : Rom) (pending : List Event) (accepted : List Accepted)
    (responses : List Response) (a : Accepted) (answered : accepted.length = responses.length)
    (h : Nat) :
    State.responsesOf h ⟨rom, pending, accepted ++ [a], responses ++ [r]⟩ =
      State.responsesOf h ⟨rom, pending, accepted, responses⟩ ++ (if a.host = h then [r] else []) := by
  unfold State.responsesOf
  rw [history_snoc (answered := answered)]
  by_cases same : a.host = h <;> simp [same]

end Sys2Proof.Machine
end

