-- ==== Sys2Proof/Laws/Serve.lean ====
section
/-! SUPPORT. What serving can do, said once: the later proofs about a step cite these and do not unfold
the step again. -/

namespace Sys2Proof.Machine

/-- Serving a sampled transaction answers exactly one response, a function of the transaction and of
the stored constants, and changes nothing else. -/
theorem serveTransaction_next (t : Transaction) (rom : Rom) :
    ∃ r, ∀ s : State, s.rom = rom →
      serveTransaction t s = .next { s with responses := s.responses ++ [r] } := by
  have entry (block key : Nat) (word : Block) (run : State → Result)
      (completes : ∀ s : State, s.rom = rom → run s = complete word s) :
      ∃ r, ∀ s : State, s.rom = rom →
        (if key > 4095 then raise .invalidKeyLength s
          else if block > 4095 then raise .invalidBlockValue s else run s) =
        .next { s with responses := s.responses ++ [r] } := by
    by_cases longKey : key > 4095
    · exact ⟨.error .invalidKeyLength, fun s _ => by rw [if_pos longKey]; rfl⟩
    · by_cases longBlock : block > 4095
      · exact ⟨.error .invalidBlockValue, fun s _ => by rw [if_neg longKey, if_pos longBlock]; rfl⟩
      · exact ⟨.done word, fun s loaded => by
          rw [if_neg longKey, if_neg longBlock, completes s loaded]; rfl⟩
  cases t with
  | command cmd =>
    cases decoded : decode cmd with
    | error e => exact ⟨.error e, fun s _ => by simp [serveTransaction, decoded, raise_eq_next]⟩
    | ok i =>
      obtain ⟨w, completes⟩ : ∃ w, ∀ s : State, s.rom = rom → exec i s = complete w s :=
        ⟨(lastResult (exec i ⟨rom, [], [], []⟩)).getD 0, fun s loaded => by
          subst loaded; cases i <;> rfl⟩
      exact ⟨.done w, fun s loaded => by
        simp only [serveTransaction, decoded, completes s loaded, complete_eq_next]⟩
  | encryptBlock block key =>
    exact entry block key (encryptWord rom (BitVec.ofNat 12 block) (BitVec.ofNat 12 key)) _
      (fun s loaded => loaded ▸ rfl)
  | decryptBlock block key =>
    exact entry block key (decryptWord rom (BitVec.ofNat 12 block) (BitVec.ofNat 12 key)) _
      (fun s loaded => loaded ▸ rfl)

/-- What a step can do when it goes on: idle, let a reset pass, or sample one request and answer it. -/
theorem step_next_cases {s t : State} (next : step s = .next t) :
    (s.pending = [] ∧ t = s) ∨
    (∃ inProgress rest, s.pending = .reset inProgress :: rest ∧ t = { s with pending := rest }) ∨
    (∃ q rest a r, s.pending = .request q :: rest ∧
      resolveCall (s.responsesOf q.host) q.call = .ok a ∧
      (∀ u : State, u.rom = s.rom →
        serveTransaction a u = .next { u with responses := u.responses ++ [r] }) ∧
      t = { s with
        pending := rest
        accepted := s.accepted ++ [⟨q.host, a⟩]
        responses := s.responses ++ [r] }) := by
  unfold step at next
  split at next
  next empty => exact .inl ⟨empty, by simpa [idle] using next.symm⟩
  next e rest head =>
    cases e with
    | reset inProgress =>
      exact .inr (.inl ⟨inProgress, rest, head, by simpa [serveEvent, serveReset] using next.symm⟩)
    | request q =>
      refine .inr (.inr ?_)
      simp only [serveEvent, serveRequest] at next
      split at next
      next a resolved =>
        obtain ⟨r, answers⟩ := serveTransaction_next a s.rom
        refine ⟨q, rest, a, r, head, resolved, answers, ?_⟩
        rw [answers (State.accept q.host a { s with pending := rest }) rfl] at next
        simpa [State.accept] using next.symm
      next => cases next

/-- A request whose operands resolve is sampled and its transaction served. -/
theorem step_request {s : State} {q : Request} {rest : List Event} {a : Transaction}
    (head : s.pending = .request q :: rest)
    (resolved : resolveCall (s.responsesOf q.host) q.call = .ok a) :
    step s = serveTransaction a
      { s with pending := rest, accepted := s.accepted ++ [⟨q.host, a⟩] } := by
  simp only [step, head, serveEvent, serveRequest, State.responsesOf_pending, resolved, State.accept]

/-! ## The calls of a host -/

variable (host : Nat) (q : Request) (inProgress : List Request) (events : List Event)

@[simp] theorem callsOf_nil : callsOf host [] = [] := rfl
@[simp] theorem callsOf_reset : callsOf host (.reset inProgress :: events) = callsOf host events := rfl
@[simp] theorem callsOf_request : callsOf host (.request q :: events) =
    if q.host = host then q.call :: callsOf host events else callsOf host events := rfl

@[simp] theorem issuers_nil : issuers [] = [] := rfl
@[simp] theorem issuers_reset : issuers (.reset inProgress :: events) = issuers events := rfl
@[simp] theorem issuers_request : issuers (.request q :: events) = q.host :: issuers events := rfl

variable {c : Call} {answers : List Response} {t : Transaction} {f : Fault}

@[simp] theorem hostResponses_nil : hostResponses [] answers = .ok answers := rfl

/-- A call that resolves adds the one response of what it presents. -/
theorem hostResponses_cons_of_ok (calls : List Call) (resolved : resolveCall answers c = .ok t) :
    hostResponses (c :: calls) answers = hostResponses calls (answers ++ [specResponse t]) := by
  simp only [hostResponses, resolved]

/-- A call that does not resolve ends what its host receives. -/
theorem hostResponses_cons_of_error (calls : List Call) (stops : resolveCall answers c = .error f) :
    hostResponses (c :: calls) answers = .error f := by
  simp only [hostResponses, stops]

@[simp] theorem dutifulCalls_nil : dutifulCalls [] answers = true := rfl

/-- A call keeps its host's duties exactly when it resolves to a dutiful transaction, and so do the later
ones after its response. -/
theorem dutifulCalls_cons (calls : List Call) : dutifulCalls (c :: calls) answers = true ↔
    ∃ t, resolveCall answers c = .ok t ∧ t.dutiful = true ∧
      dutifulCalls calls (answers ++ [specResponse t]) = true := by
  cases resolved : resolveCall answers c <;> simp [dutifulCalls, resolved]

/-! ## Steps that stop or reset -/

/-- A request whose operands do not resolve stops the step, with nothing sampled. -/
theorem step_request_fault {s : State} {rest : List Event} (head : s.pending = .request q :: rest)
    (stops : resolveCall (s.responsesOf q.host) q.call = .error f) : step s = .fault f := by
  simp only [step, head, serveEvent, serveRequest, State.responsesOf_pending, stops]

/-- A reset leaves the list of what is pending and changes nothing else. -/
theorem step_reset {s : State} {rest : List Event} (head : s.pending = .reset inProgress :: rest) :
    step s = .next { s with pending := rest } := by
  simp only [step, head, serveEvent, serveReset]

end Sys2Proof.Machine
end

