-- ==== Sys2Proof/Laws/Transforms.lean ====
section
/-! SUPPORT. The block transforms on a word packed from its cells, and reading the result of a command:
one lemma per function, so that callers do not unfold it. -/

namespace Sys2Proof.Machine

/-- A command that completes answers its result word. -/
@[simp] theorem lastResult_complete (w : Block) (s : State) : lastResult (complete w s) = some w := by
  simp [complete_eq_next, lastResult, Response.result?]

/-- A command that raises answers no result word. -/
@[simp] theorem lastResult_raise (e : ErrorKind) (s : State) : lastResult (raise e s) = none := by
  simp [raise_eq_next, lastResult, Response.result?]

variable (a b c d : FieldElement)

theorem substitute_pack (rom : Rom) :
    substitute rom (pack a b c d) =
      pack (romRead rom a) (romRead rom b) (romRead rom c) (romRead rom d) := by
  simp [substitute]

theorem shiftForward_pack : shiftForward (pack a b c d) = pack a b d c := by
  simp [shiftForward]

theorem shiftInverse_pack : shiftInverse (pack a b c d) = pack a b d c := by
  simp [shiftInverse]

theorem mixForward_pack (rom : Rom) :
    mixForward rom (pack a b c d) =
      pack (mixPair rom.p rom.mF a b).1 (mixPair rom.p rom.mF a b).2
        (mixPair rom.p rom.mF c d).1 (mixPair rom.p rom.mF c d).2 := by
  simp [mixForward]

theorem mixInverse_pack (rom : Rom) :
    mixInverse rom (pack a b c d) =
      pack (mixPair rom.p rom.mI a b).1 (mixPair rom.p rom.mI a b).2
        (mixPair rom.p rom.mI c d).1 (mixPair rom.p rom.mI c d).2 := by
  simp [mixInverse]

/-- Adding a key cell by cell is one XOR of the words. -/
theorem keyMix_eq_xor (w k : Block) : keyMix w k = w ^^^ k := by
  obtain ⟨a, b, c, d, rfl⟩ := exists_pack w
  obtain ⟨a', b', c', d', rfl⟩ := exists_pack k
  simp [keyMix, pack_xor_pack, gadd]

end Sys2Proof.Machine
end

