-- ==== Sys2Proof/Tests/Slice0.lean ====
section
/-! SUPPORT. The model's own tests. Expected values are the spec's: the words and results of
95_test_vectors.md §2 and §3, the bit patterns of 30_encoding.md R62 to R65. At the end, for each
statement with hypotheses, a state and operands that meet them all. -/

namespace Sys2Proof.Tests

open Sys2Proof.Machine

/-- The reset state with these events pending. -/
def port (events : List Event) : State := { State.reset with pending := events }

/-- Host 0 presents a command word. -/
def word (cmd : Command) : Event := .request ⟨0, Call.ofWord cmd⟩

/-- The responses after a step, if there is a next state. -/
def responsesAfter : Result → Option (List Response)
  | .next t => some t.responses
  | .fault _ => none
  | .refused _ => none

/-- The fault of an outcome. -/
def faultOf : Result → Option Fault
  | .fault f => some f
  | .next _ => none
  | .refused _ => none

/-- The response of the first step after reset on a command word. -/
def answer (cmd : Nat) : Option (List Response) := responsesAfter (step (State.reset.withFetchWord 28 cmd))

/-! ## Ill-formed words and entry values (R233, 95 §2.9) -/

theorem test_wf_accepts_nearest_words :
    [0x0007007#28, 0x8FFFFFF#28, 0xAFFFFFF#28].all wellFormedCommand = true := by decide
theorem test_wf_refuses_reserved_opcode : wellFormedCommand 0xB000000 = false := by decide
theorem test_wf_refuses_ff2_bit_of_a : wellFormedCommand 0x0008001 = false := by decide
theorem test_wf_refuses_ff2_bit_of_b : wellFormedCommand 0x0000008 = false := by decide
theorem test_wf_refuses_ff1_bit_of_a : wellFormedCommand 0x2008000 = false := by decide
theorem test_wf_refuses_ff1_b : wellFormedCommand 0x2000001 = false := by decide
theorem test_wf_refuses_fb1_b : wellFormedCommand 0x3616001 = false := by decide
theorem test_wf_refuses_entry_block : wellFormedEntry 4096 0 = false := by decide
theorem test_wf_refuses_entry_key : wellFormedEntry 0 4096 = false := by decide
theorem test_wf_accepts_entry_bounds : wellFormedEntry 4095 4095 = true := by decide

/-! ## Decoding words written from the patterns of R62 to R65, opcodes from R69 -/

theorem test_decode_gfadd : decode 0b0000000000000101000000000011#28 = .ok (.gfadd 5 3) := by decide
theorem test_decode_gfmul : decode 0b0001000000000010000000000100#28 = .ok (.gfmul 2 4) := by decide
theorem test_decode_gfinv : decode 0b0010000000000101000000000000#28 = .ok (.gfinv 5) := by decide
theorem test_decode_sub : decode 0b0011011000010110000000000000#28 = .ok (.sub 0x616) := by decide
theorem test_decode_shiftf : decode 0b0100110000101011000000000000#28 = .ok (.shiftf 0xC2B) := by decide
theorem test_decode_shifti : decode 0b0101110000011101000000000000#28 = .ok (.shifti 0xC1D) := by decide
theorem test_decode_mixf : decode 0b0110110000011101000000000000#28 = .ok (.mixf 0xC1D) := by decide
theorem test_decode_mixi : decode 0b0111110111010011000000000000#28 = .ok (.mixi 0xDD3) := by decide
theorem test_decode_keymix :
    decode 0b1000110111010011010100111100#28 = .ok (.keymix 0xDD3 0x53C) := by decide
theorem test_decode_enc : decode 0b1001011000010110010100111100#28 = .ok (.enc 0x616 0x53C) := by decide
theorem test_decode_dec : decode 0b1010100011101111010100111100#28 = .ok (.dec 0x8EF 0x53C) := by decide
theorem test_decode_opcode_before_operand_bits :
    decode 0xF123456 = .error .reservedOpcode := by decide
theorem test_decode_mixi_reserved_bit : decode 0x7000800 = .error .reservedOperandBits := by decide
theorem test_decodeTableWord_rejects_a_29th_bit : decodeTableWord 32 0x10005003 = none := by decide
theorem test_decodeTableWord_32_bits : decodeTableWord 32 0x0005003 = some (.gfadd 5 3) := by decide
theorem test_encode_dec : encode (.dec 0x8EF 0x53C) = 0xA8EF53C := by decide
theorem test_encode_gfmul : encode (.gfmul 5 2) = 0x1005002 := by decide

/-! ## One step on a command word (95 §2) -/

theorem test_gfadd_5_3 : answer 0x0005003 = some [.done 0x006] := by decide
theorem test_gfadd_self_inverse : answer 0x0007007 = some [.done 0x000] := by decide
theorem test_gfmul_both_reduction_steps : answer 0x1007007 = some [.done 0x003] := by decide
theorem test_gfmul_4_4 : answer 0x1004004 = some [.done 0x006] := by decide
theorem test_gfinv_5 : answer 0x2005000 = some [.done 0x002] := by decide
theorem test_gfinv_0 : answer 0x2000000 = some [.done 0x000] := by decide
theorem test_sub_616 : answer 0x3616000 = some [.done 0xC2B] := by decide
theorem test_sub_123 : answer 0x3123000 = some [.done 0x1FE] := by decide
theorem test_shiftf_123 : answer 0x4123000 = some [.done 0x11C] := by decide
theorem test_shiftf_c11_to_c10 : answer 0x4007000 = some [.done 0x038] := by decide
theorem test_shifti_C1D : answer 0x5C1D000 = some [.done 0xC2B] := by decide
theorem test_shifti_c10_to_c11 : answer 0x5038000 = some [.done 0x007] := by decide
/-- The axis of the mix (90_conflicts.md C1): rows, not columns. -/
theorem test_mixf_axis : answer 0x6200000 = some [.done 0x280] := by decide
theorem test_mixf_C1D : answer 0x6C1D000 = some [.done 0xDD3] := by decide
theorem test_mixi_FFF : answer 0x7FFF000 = some [.done 0x924] := by decide
theorem test_mixi_011 : answer 0x7011000 = some [.done 0x001] := by decide
theorem test_keymix_example : answer 0x8DD353C = some [.done 0x8EF] := by decide
theorem test_keymix_all_ones : answer 0x8123FFF = some [.done 0xEDC] := by decide
theorem test_enc_example_1 : answer 0x961653C = some [.done 0x8EF] := by decide
theorem test_enc_example_2 : answer 0x9486AAA = some [.done 0x3B4] := by decide
theorem test_dec_example_1 : answer 0xA3E453C = some [.done 0x263] := by decide
theorem test_dec_is_not_enc : answer 0xA001000 = some [.done 0x02F] := by decide

/-! ## Errors, entries, names, reset (95 §2.9, §3) -/

theorem test_reserved_opcode : answer 0xB000000 = some [.error .reservedOpcode] := by decide
theorem test_reserved_operand_bits : answer 0x0008001 = some [.error .reservedOperandBits] := by decide
theorem test_entry_priority :
    responsesAfter (step (port [.request ⟨0, .encryptBlock (.lit 5000) (.lit 5000)⟩])) =
      some [.error .invalidKeyLength] := by decide
theorem test_entry_block :
    responsesAfter (step (port [.request ⟨0, .encryptBlock (.lit 4096) (.lit 0)⟩])) =
      some [.error .invalidBlockValue] := by decide
theorem test_entry_encrypt :
    responsesAfter (step (port [.request ⟨0, .encryptBlock (.lit 4095) (.lit 0)⟩])) =
      some [.done 0xFFF] := by decide
theorem test_entry_decrypt :
    responsesAfter (step (port [.request ⟨0, .decryptBlock (.lit 4095) (.lit 4095)⟩])) =
      some [.done 0x000] := by decide

/-- After step 1 of program P1 (95 §3): host 0 has received 0x8EF. -/
def afterEnc : State where
  rom := romConstants
  pending := [.request ⟨0, .command 0xA (.result 1) (.lit 0x53C)⟩]
  accepted := [⟨0, .command 0x961653C⟩]
  responses := [.done 0x8EF]

/-- After step 1 of program P4 (95 §3): host 0 has received an error. -/
def afterError : State where
  rom := romConstants
  pending := [.request ⟨0, .command 0x3 (.result 1) (.lit 0)⟩]
  accepted := [⟨0, .command 0xB616000⟩]
  responses := [.error .reservedOpcode]

theorem test_P1_step_2 : responsesAfter (step afterEnc) = some [.done 0x8EF, .done 0x616] := by decide
theorem test_error_has_no_result_word : faultOf (step afterError) = some .noResultWord := by decide
theorem test_no_response_yet :
    faultOf (step (port [.request ⟨0, .command 0x3 (.result 1) (.lit 0)⟩])) =
      some .responseNotArrived := by decide
theorem test_names_are_the_hosts_own :
    faultOf (step { afterEnc with pending := [.request ⟨1, .command 0xA (.result 1) (.lit 0)⟩] }) =
      some .responseNotArrived := by decide
theorem test_reset_loses_the_response :
    responsesAfter (step (port [.reset [⟨0, Call.ofWord 0x3616000⟩]])) = some [] := by decide
theorem test_error_record_keeps_the_error :
    afterError.errorRecord = [(⟨0, .command 0xB616000⟩, .error .reservedOpcode)] := by decide
theorem test_status_code : (Response.error .reservedOperandBits).statusBits = 4 := by decide

/-! ## The assembler (95 §2, §3) -/

theorem test_assemble_enc :
    assemble "enc 0x616, 0x53C".toList = some (Call.ofWord 0x961653C) := by decide
theorem test_assemble_binary_decimal :
    assemble "gfmul 0b111, 7".toList = some (Call.ofWord 0x1007007) := by decide
theorem test_assemble_rejects_a_wide_field : assemble "gfadd 8, 1".toList = none := by decide
theorem test_assemble_line :
    assembleLine "r2 = dec r1, 0x53C".toList =
      some (some 2, .command 0xA (.result 1) (.lit 0x53C)) := by decide
theorem test_assemble_program_numbers :
    assembleProgram 1 ["r1 = sub 0x263".toList, "r3 = shiftf r1".toList] = none := by decide
theorem test_disassemble : disassemble (.mixi 0xDD3) = "mixi 0xdd3".toList := by decide

/-! ## The hypotheses of the statements can be met

Each theorem names the statement it is about. -/

theorem witness_ResetHoldsTheConstantsAndNoResponse :
    (port [.reset []]).pending = .reset [] :: [] := rfl

theorem witness_ResetLosesTheResponseAndReissueGivesIt :
    (⟨0, Call.ofWord 0x3616000⟩ : Request) ∈ [(⟨0, Call.ofWord 0x3616000⟩ : Request)] ∧
    (port [.reset [⟨0, Call.ofWord 0x3616000⟩], word 0x3616000]).pending =
      .reset [⟨0, Call.ofWord 0x3616000⟩] :: .request ⟨0, Call.ofWord 0x3616000⟩ :: [] := by decide

theorem witness_NoStepWritesTheConstants :
    step (port [word 0x3616000]) =
      .next { State.reset with accepted := [⟨0, .command 0x3616000⟩], responses := [.done 0xC2B] } := by
  rfl

/-- A state with one pending request of host 0 meets the invariant. -/
theorem port_inv (c : Call) : (port [.request ⟨0, c⟩]).Inv where
  constants := rfl
  answered := rfl
  pure := by simp [port, State.reset, State.history]
  sampledFromHosts := by simp [port, State.reset]
  pendingFromHosts := by
    simp [port, State.reset, Event.fromHosts, Request.fromHost, Config.requesters]

theorem witness_EveryStepKeepsTheInvariant :
    (port [word 0x3616000]).Inv ∧
    step (port [word 0x3616000]) =
      .next { State.reset with accepted := [⟨0, .command 0x3616000⟩], responses := [.done 0xC2B] } :=
  ⟨port_inv _, rfl⟩

theorem witness_EncodeOfDecodeIsTheWord : decode 0x1007007 = .ok (.gfmul 7 7) := by decide

theorem witness_WordsAreValidExactlyWhenOneRowMatches :
    (∃ row ∈ opcodeTable, (0x1007007#28) &&& row.mask = row.pattern) ∧
    (∀ row ∈ opcodeTable, (0xB000000#28) &&& row.mask ≠ row.pattern) ∧
    (∀ row ∈ opcodeTable, (0x0000008#28) &&& row.mask ≠ row.pattern) := by decide

theorem witness_ReservedOpcodesAreAnsweredReservedOpcode :
    0xB ≤ ((0xB000000#28).extractLsb' 24 4).toNat ∧
    0xB ≤ ((0xFFFFFFF#28).extractLsb' 24 4).toNat := by decide

/-- Each clause at its first and last opcode: FF2 at 0 and 1, FF1 at 2, FB1 at 3 and 7, FB2 at 8 and 0xA. -/
theorem witness_ReservedOperandBitsAreAnsweredReservedOperandBits :
    ((0x0#4).toNat ≤ 1 ∧ (0x008#12).extractLsb' 3 9 ≠ 0) ∧
    ((0x1#4).toNat ≤ 1 ∧ (0x800#12).extractLsb' 3 9 ≠ 0) ∧
    ((0x2#4).toNat = 2 ∧ (0x001#12) ≠ 0) ∧
    (3 ≤ (0x3#4).toNat ∧ (0x3#4).toNat ≤ 7 ∧ (0x001#12) ≠ 0) ∧
    (3 ≤ (0x7#4).toNat ∧ (0x7#4).toNat ≤ 7 ∧ (0x800#12) ≠ 0) ∧
    (8 ≤ (0x8#4).toNat ∧ (0x8#4).toNat ≤ 0xA) ∧ (8 ≤ (0xA#4).toNat ∧ (0xA#4).toNat ≤ 0xA) := by decide

theorem witness_GfaddAnswersTheXorOfItsOperands :
    lastResult (exec (.gfadd 5 3) State.reset) = some 0x006 := by decide

theorem witness_GfmulAnswersTheProductModuloThePolynomial : State.reset.rom = romConstants := rfl

theorem witness_GfinvAnswersTheInverseAndZeroForZero :
    State.reset.rom = romConstants ∧ (5 : FieldElement) ≠ 0 ∧
    lastResult (exec (.gfinv 5) State.reset) = some 0x002 := by decide

theorem witness_GfmulAnswersTheRemainderOfThePolynomialProduct : State.reset.rom = romConstants := rfl

theorem witness_GfaddIsCommutativeAssociativeSelfInverse :
    lastResult (exec (.gfadd 5 3) State.reset) = some 0x006 ∧
    lastResult (exec (.gfadd 3 1) State.reset) = some 0x002 := by decide

theorem witness_GfmulIsCommutativeAssociativeDistributive :
    State.reset.rom = romConstants ∧ lastResult (exec (.gfmul 5 3) State.reset) = some 0x004 ∧
    lastResult (exec (.gfmul 3 1) State.reset) = some 0x003 ∧
    lastResult (exec (.gfadd 3 1) State.reset) = some 0x002 ∧
    lastResult (exec (.gfmul 5 1) State.reset) = some 0x005 := by decide

theorem witness_ExactlyOneInverseOfEachNonzeroElement :
    State.reset.rom = romConstants ∧ (7 : FieldElement) ≠ 0 := by decide

theorem witness_SubAnswersEveryCellThroughTheTable : State.reset.rom = romConstants := rfl

theorem witness_SubTwiceAnswersTheBlock :
    State.reset.rom = romConstants ∧ lastResult (exec (.sub 0x616) State.reset) = some 0xC2B := by decide

theorem witness_ShiftfAnswersTheBottomRowSwapped :
    (0x249#12).extractLsb' 3 3 = (0x249#12).extractLsb' 0 3 := by decide

theorem witness_RowShiftTwiceAnswersTheBlock :
    lastResult (exec (.shiftf 0xC2B) State.reset) = some 0xC1D := by decide

theorem witness_MixfAnswersTheForwardMatrixTimesEachRow :
    State.reset.rom = romConstants ∧ lastResult (exec (.mixf 0x200) State.reset) = some 0x280 ∧
    lastResult (exec (.mixf 0x001) State.reset) = some 0x011 := by decide

theorem witness_MixiAnswersTheInverseMatrixTimesEachRow :
    State.reset.rom = romConstants ∧ lastResult (exec (.mixi 0x280) State.reset) = some 0x200 ∧
    lastResult (exec (.mixi 0x011) State.reset) = some 0x001 := by decide

theorem witness_MixesUndoEachOther :
    State.reset.rom = romConstants ∧ lastResult (exec (.mixf 0xC1D) State.reset) = some 0xDD3 ∧
    lastResult (exec (.mixi 0xDD3) State.reset) = some 0xC1D := by decide

theorem witness_KeymixTwiceAnswersTheBlock :
    lastResult (exec (.keymix 0xDD3 0x53C) State.reset) = some 0x8EF := by decide

theorem witness_EncAnswersTheFourStagesInOrder : State.reset.rom = romConstants := rfl

theorem witness_DecAnswersTheFourStagesReversed : State.reset.rom = romConstants := rfl

theorem witness_DecryptionAndEncryptionUndoEachOther :
    State.reset.rom = romConstants ∧ lastResult (exec (.enc 0x616 0x53C) State.reset) = some 0x8EF ∧
    lastResult (exec (.dec 0x8EF 0x53C) State.reset) = some 0x616 := by decide

theorem witness_TheKeyEntersOnceAndNothingIsChained :
    State.reset.rom = afterEnc.rom ∧
    lastResult (exec (.enc 0x616 0x53C) State.reset) = some 0x8EF := by decide

/-- The three clauses at their boundary: key 4096; key 4095 with block 4096; both 4095. -/
theorem witness_EncryptBlockChecksTheKeyThenTheBlockThenEncrypts :
    responsesAfter (serveTransaction (.encryptBlock 4096 4096) State.reset) = some [.error .invalidKeyLength] ∧
    responsesAfter (serveTransaction (.encryptBlock 4096 4095) State.reset) = some [.error .invalidBlockValue] ∧
    responsesAfter (serveTransaction (.encryptBlock 4095 4095) State.reset) = some [.done 0x000] := by decide

/-- The three clauses at their boundary: key 4096; key 4095 with block 4096; both 4095. -/
theorem witness_DecryptBlockChecksTheKeyThenTheBlockThenDecrypts :
    responsesAfter (serveTransaction (.decryptBlock 4096 4096) State.reset) = some [.error .invalidKeyLength] ∧
    responsesAfter (serveTransaction (.decryptBlock 4096 4095) State.reset) = some [.error .invalidBlockValue] ∧
    responsesAfter (serveTransaction (.decryptBlock 4095 4095) State.reset) = some [.done 0x000] := by decide

theorem witness_AnErrorLeavesTheNextTransactionAsItWas :
    (port [Accepted.present ⟨0, .command 0xB616000⟩, Accepted.present ⟨1, .command 0x3616000⟩]).accepted.length =
      State.reset.responses.length ∧
    step (port [Accepted.present ⟨0, .command 0xB616000⟩, Accepted.present ⟨1, .command 0x3616000⟩]) =
      .next { port [Accepted.present ⟨1, .command 0x3616000⟩] with
        accepted := [⟨0, .command 0xB616000⟩], responses := [.error .reservedOpcode] } :=
  ⟨rfl, rfl⟩

theorem witness_EveryDecodedOperationAnswersOkAndChangesNothingElse : State.reset.rom = romConstants := rfl

theorem witness_ExecAgreesWithTheSpecsEquations : State.reset.rom = romConstants := rfl

theorem witness_StepSamplesTheWordAndRunsItsInstruction :
    (port [word 0x961653C]).pending = .request ⟨0, Call.ofWord 0x961653C⟩ :: [] ∧
    (port [word 0x961653C]).pending = Accepted.present ⟨0, .command 0x961653C⟩ :: [] ∧
    decode 0x961653C = .ok (.enc 0x616 0x53C) := by decide

theorem witness_StepRunsTheWordPlacedNext :
    decodeTableWord 32 0x961653C = some (.enc 0x616 0x53C) := by decide

theorem witness_NothingHappensWhileNothingIsPending : State.reset.pending = [] := rfl

/-- The three clauses, each at its first name: a result word; an error; no response, as `r0`, as the name just
beyond the one response there is, and as `r1` of a host with none. -/
theorem witness_ResultNamesStandForTheHostsOwnResults :
    (afterEnc.responsesOf 0)[0]? = some (.done 0x8EF) ∧
    (afterError.responsesOf 0)[0]? = some (.error .reservedOpcode) ∧
    (0 = 0 ∨ (afterEnc.responsesOf 0).length < 0) ∧ (2 = 0 ∨ (afterEnc.responsesOf 0).length < 2) ∧
    (1 = 0 ∨ (State.reset.responsesOf 0).length < 1) := by decide

/-- Each clause as second operand and in an entry. -/
theorem witness_ResultNamesStandForTheHostsOwnResults_forms :
    responsesAfter (step { afterEnc with pending := [.request ⟨0, .command 0x8 (.lit 0xDD3) (.result 1)⟩] }) =
      some [.done 0x8EF, .done 0x53C] ∧
    responsesAfter (step { afterEnc with pending := [.request ⟨0, .decryptBlock (.result 1) (.lit 0x53C)⟩] }) =
      some [.done 0x8EF, .done 0x616] ∧
    faultOf (step { afterError with pending := [.request ⟨0, .encryptBlock (.lit 0) (.result 1)⟩] }) =
      some .noResultWord ∧
    faultOf (step { afterEnc with pending := [.request ⟨0, .command 0x8 (.lit 0) (.result 0)⟩] }) =
      some .responseNotArrived := by decide

theorem witness_RepeatingATransactionRepeatsItsResponse :
    (⟨0, .command 0x3616000⟩ : Accepted).transaction = (⟨1, .command 0x3616000⟩ : Accepted).transaction ∧
    (port [Accepted.present ⟨0, .command 0x3616000⟩, Accepted.present ⟨1, .command 0x3616000⟩]).pending =
      Accepted.present ⟨0, .command 0x3616000⟩ :: Accepted.present ⟨1, .command 0x3616000⟩ :: [] :=
  ⟨rfl, rfl⟩

theorem witness_ARunAnswersEveryTransactionInOrder :
    State.reset.rom = romConstants ∧
    (port [word 0x961653C]).pending = [(⟨0, .command 0x961653C⟩ : Accepted)].map Accepted.present ++ [] :=
  ⟨rfl, rfl⟩

/-- Two interleavings of one command of host 0 and one of host 1. -/
theorem witness_InterleavingDoesNotChangeAHostsResponses :
    State.reset.rom = romConstants ∧ State.reset.accepted.length = State.reset.responses.length ∧
    ∀ host : Nat,
      [(⟨0, .command 0x3616000⟩ : Accepted), ⟨1, .command 0x961653C⟩].filter (fun a => a.host == host) =
        [(⟨1, .command 0x961653C⟩ : Accepted), ⟨0, .command 0x3616000⟩].filter (fun a => a.host == host) := by
  refine ⟨rfl, rfl, fun host => ?_⟩
  rcases host with _ | _ | host <;> simp

/-- Host 0 encrypts and decrypts its own result; a reset, and a command of host 1, stand between. -/
def named : List Event :=
  [word 0x961653C, .reset [⟨1, Call.ofWord 0x3616000⟩], .request ⟨1, Call.ofWord 0x3123000⟩,
    .request ⟨0, .command 0xA (.result 1) (.lit 0x53C)⟩]

/-- The same calls of each host in another order, with no reset. -/
def named' : List Event :=
  [.request ⟨1, Call.ofWord 0x3123000⟩, word 0x961653C, .request ⟨0, .command 0xA (.result 1) (.lit 0x53C)⟩]

/-- What each host receives for them. -/
def namedAnswers : Nat → List Response
  | 0 => [.done 0x8EF, .done 0x616]
  | 1 => [.done 0x1FE]
  | _ => []

theorem callsOf_named (host : Nat) : callsOf host named = callsOf host named' := by
  rcases host with _ | _ | host <;> simp [named, named', word]

theorem hostResponses_named (host : Nat) :
    hostResponses (callsOf host named) (State.reset.responsesOf host) = .ok (namedAnswers host) := by
  rcases host with _ | _ | host
  · decide
  · decide
  · simp [named, word, State.responsesOf, State.reset, State.history, namedAnswers]

/-- The run that completes. -/
theorem witness_ARunGivesEachHostTheResponsesOfItsOwnCalls :
    State.reset.rom = romConstants ∧ State.reset.accepted.length = State.reset.responses.length ∧
    (port named).pending = named ++ [] ∧ issuers named = [0, 1, 0] ∧
    responsesAfter (Host.Core.run core named.length (port named)) =
      some [.done 0x8EF, .done 0x1FE, .done 0x616] ∧
    ∀ host : Nat, ∃ answers,
      hostResponses (callsOf host named) ((port named).responsesOf host) = .ok answers :=
  ⟨rfl, rfl, rfl, by decide, by decide, fun host => ⟨_, hostResponses_named host⟩⟩

/-- The run that stops: host 0 names the result of an error. -/
theorem witness_ARunGivesEachHostTheResponsesOfItsOwnCalls_fault :
    faultOf (Host.Core.run core 2
      (port [word 0xB000000, .request ⟨0, .command 0x3 (.result 1) (.lit 0)⟩])) = some .noResultWord ∧
    hostResponses (callsOf 0 [word 0xB000000, .request ⟨0, .command 0x3 (.result 1) (.lit 0)⟩])
      (State.reset.responsesOf 0) = .error .noResultWord := by decide

theorem witness_InterleavingDoesNotChangeTheResultsOfNames :
    State.reset.rom = romConstants ∧ State.reset.accepted.length = State.reset.responses.length ∧
    (∀ host : Nat, callsOf host named = callsOf host named') ∧
    ∀ host : Nat, hostResponses (callsOf host named) (State.reset.responsesOf host) =
      .ok (namedAnswers host) :=
  ⟨rfl, rfl, callsOf_named, hostResponses_named⟩

theorem witness_AHostCannotObserveAnother :
    (port [word 0x3616000]).Inv ∧ (port [word 0x3616000]).pending = .request ⟨0, Call.ofWord 0x3616000⟩ :: [] ∧
    (port [word 0x3616000]).responsesOf 1 = (port [word 0x3616000]).responsesOf 1 ∧ 0 ≠ 1 :=
  ⟨port_inv _, rfl, rfl, by decide⟩

/-- The clause on faults: host 0 names a response it has not got. -/
theorem witness_AHostCannotObserveAnother_fault :
    (port [.request ⟨0, .command 0x3 (.result 1) (.lit 0)⟩]).Inv ∧
    step (port [.request ⟨0, .command 0x3 (.result 1) (.lit 0)⟩]) = .fault .responseNotArrived :=
  ⟨port_inv _, rfl⟩

theorem witness_HostsThatKeepTheirDutiesGetNoError :
    (port [word 0x961653C]).Inv ∧ (port [word 0x961653C]).errorRecord = [] ∧
    (port [word 0x961653C]).pending = [(⟨0, .command 0x961653C⟩ : Accepted)].map Accepted.present ∧
    (∀ a ∈ [(⟨0, .command 0x961653C⟩ : Accepted)], a.transaction.dutiful = true) :=
  ⟨port_inv _, rfl, rfl, by decide⟩

/-- Host 0 runs program P1 (95 §3) with a reset after its first command. -/
theorem witness_DutifulCallsWithResultNamesGetNoError :
    (port [word 0x961653C, .reset [], .request ⟨0, .command 0xA (.result 1) (.lit 0x53C)⟩]).Inv ∧
    (port [word 0x961653C]).errorRecord = [] ∧
    ∀ host : Nat, dutifulCalls
      (callsOf host [word 0x961653C, .reset [], .request ⟨0, .command 0xA (.result 1) (.lit 0x53C)⟩])
      (State.reset.responsesOf host) = true := by
  refine ⟨⟨rfl, rfl, ?_, ?_, ?_⟩, rfl, fun host => ?_⟩
  · simp [port, State.reset, State.history]
  · simp [port, State.reset]
  · simp [port, State.reset, word, Event.fromHosts, Request.fromHost, Config.requesters]
  · rcases host with _ | host
    · decide
    · simp [word]

/-- Each clause of the statement, with the operand of program P2, step 8 (95 §3), and one literal of each base. -/
theorem witness_ShiftiIsNeverAssembledAsShiftf :
    number 10 ['7'] = some 7 ∧ literal "4095".toList = some 4095 ∧
    literal "0b111".toList = some 7 ∧ literal "0x277".toList = some 0x277 ∧
    assemble "shifti 631".toList = some (.command 0x5 (.lit 0x277) (.lit 0)) ∧
    assemble "shifti 4096".toList = none ∧ assemble "shiftf 4096".toList = none ∧
    assembleLine "r8 = shifti r7".toList = some (some 8, .command 0x5 (.result 7) (.lit 0)) := by decide

end Sys2Proof.Tests
end

section
/-! PROOFS. Reset, the stored constants and the invariant (10_state.md). The invariant needs one fact of its
own: over the stored constants the machine's block functions are the spec's per-cell equations, so that
what the CORE answers is `specResponse`. -/

namespace Sys2Proof.Machine

/-! ## The block functions over the stored constants -/

/-- R120, R121. -/
theorem substitute_romConstants (w : Block) : substitute romConstants w = substituted w := by
  simp only [substitute, mapCells, romRead_eq_ginv, substituted, inverse]

/-- R130: swapping the cells of row 1, in bits. -/
theorem shiftForward_eq_shifted (w : Block) : shiftForward w = shifted w := by
  have topRow : cell w 0 0 ++ cell w 0 1 = w.extractLsb' 6 6 :=
    BitVec.extractLsb'_append_extractLsb'_eq_extractLsb' (by decide)
  exact congrArg (· ++ cell w 1 1 ++ cell w 1 0) topRow

/-- R131: SHIFTI is the same permutation. -/
theorem shiftInverse_eq_shifted (w : Block) : shiftInverse w = shifted w :=
  shiftForward_eq_shifted w

/-- R142: M_F row by row. -/
theorem mixForward_romConstants (w : Block) : mixForward romConstants w = mixed w := by
  simp only [mixForward, romConstants, mapRows, mixPair_forward, mixed, product]

/-- R143: M_I row by row. -/
theorem mixInverse_romConstants (w : Block) : mixInverse romConstants w = unmixed w := rfl

/-- R160: the four stages of ENC. -/
theorem encryptWord_romConstants (w : Block) (k : Key) :
    encryptWord romConstants w k = specResult (.enc w k) := by
  simp only [encryptWord, substitute_romConstants, shiftForward_eq_shifted, mixForward_romConstants,
    keyMix_eq_xor, specResult]

/-- R161: the four stages of DEC. -/
theorem decryptWord_romConstants (w : Block) (k : Key) :
    decryptWord romConstants w k = specResult (.dec w k) := by
  simp only [decryptWord, substitute_romConstants, shiftInverse_eq_shifted, mixInverse_romConstants,
    keyMix_eq_xor, specResult]

/-! ## What is answered over the stored constants -/

variable {s t : State}

/-- Every instruction completes with the result word the spec gives it. -/
theorem exec_eq_complete_specResult (loaded : s.rom = romConstants) (i : Instr) :
    exec i s = complete (specResult i) s := by
  cases i with
  | gfadd fa fb => rfl
  | gfmul fa fb => simp only [exec, execGfmul, loaded]; rfl
  | gfinv fa => simp only [exec, execGfinv, loaded, romRead_eq_ginv]; rfl
  | sub wa => simp only [exec, execSub, loaded, substitute_romConstants]; rfl
  | shiftf wa => simp only [exec, execShiftf, shiftForward_eq_shifted]; rfl
  | shifti wa => simp only [exec, execShifti, shiftInverse_eq_shifted]; rfl
  | mixf wa => simp only [exec, execMixf, loaded, mixForward_romConstants]; rfl
  | mixi wa => simp only [exec, execMixi, loaded, mixInverse_romConstants]; rfl
  | keymix wa kb => simp only [exec, execKeymix, keyMix_eq_xor]; rfl
  | enc wa kb => simp only [exec, execEnc, loaded, encryptWord_romConstants]
  | dec wa kb => simp only [exec, execDec, loaded, decryptWord_romConstants]

/-- R164: the entry checks its ranges and runs ENC. -/
theorem enterEncryptBlock_eq_respond (loaded : s.rom = romConstants) (block key : Nat) :
    enterEncryptBlock block key s = .next (s.respond (entryResponse .enc block key)) := by
  unfold enterEncryptBlock entryResponse
  split_ifs
  · rfl
  · rfl
  · exact exec_eq_complete_specResult loaded (.enc _ _)

/-- R165: the entry checks its ranges and runs DEC. -/
theorem enterDecryptBlock_eq_respond (loaded : s.rom = romConstants) (block key : Nat) :
    enterDecryptBlock block key s = .next (s.respond (entryResponse .dec block key)) := by
  unfold enterDecryptBlock entryResponse
  split_ifs
  · rfl
  · rfl
  · exact exec_eq_complete_specResult loaded (.dec _ _)

/-- R50: a sampled transaction gets the response that is the function of its own fields. -/
theorem serveTransaction_eq_respond_specResponse (loaded : s.rom = romConstants) (a : Transaction) :
    serveTransaction a s = .next (s.respond (specResponse a)) := by
  cases a with
  | command cmd =>
    cases decoded : decode cmd with
    | ok i =>
      simp only [serveTransaction, specResponse, decoded, exec_eq_complete_specResult loaded, complete]
    | error e => simp only [serveTransaction, specResponse, decoded, raise]
  | encryptBlock block key => exact enterEncryptBlock_eq_respond loaded block key
  | decryptBlock block key => exact enterDecryptBlock_eq_respond loaded block key

/-! ## What keeps the invariant -/

/-- An event that leaves the list of what is pending takes nothing from the invariant. -/
theorem State.Inv.drop_pending {e : Event} {rest : List Event} (inv : s.Inv)
    (head : s.pending = e :: rest) : State.Inv { s with pending := rest } where
  constants := inv.constants
  answered := inv.answered
  pure := inv.pure
  sampledFromHosts := inv.sampledFromHosts
  pendingFromHosts := fun e' waits => inv.pendingFromHosts e' (head ▸ .tail e waits)

/-- Sampling a transaction of one of the hosts together with its own response keeps the invariant. -/
theorem State.Inv.snoc {a : Accepted} (inv : s.Inv) (known : a.host < Config.requesters) :
    State.Inv { s with
      accepted := s.accepted ++ [a]
      responses := s.responses ++ [specResponse a.transaction] } where
  constants := inv.constants
  answered := by simp [inv.answered]
  pure := by
    rw [history_snoc (answered := inv.answered)]
    exact List.forall_mem_append.2 ⟨inv.pure, List.forall_mem_singleton.2 rfl⟩
  sampledFromHosts := List.forall_mem_append.2 ⟨inv.sampledFromHosts, List.forall_mem_singleton.2 known⟩
  pendingFromHosts := inv.pendingFromHosts

/-- R33, R215: the invariant holds at reset, where nothing is sampled and nothing pending. -/
theorem reset_inv : State.reset.Inv where
  constants := rfl
  answered := rfl
  pure := List.forall_mem_nil _
  sampledFromHosts := List.forall_mem_nil _
  pendingFromHosts := List.forall_mem_nil _

/-- R21, R50: a step keeps the invariant, case by case of what a step can do. -/
theorem step_keeps_inv (inv : s.Inv) (next : step s = .next t) : t.Inv := by
  obtain ⟨-, rfl⟩ | ⟨inProgress, rest, head, rfl⟩ | ⟨q, rest, a, r, head, -, answers, rfl⟩ :=
    step_next_cases next
  case inl => exact inv
  case inr.inl => exact inv.drop_pending head
  case inr.inr =>
    have own : r = specResponse a := by
      have served := (answers s rfl).symm.trans
        (serveTransaction_eq_respond_specResponse inv.constants a)
      simpa [State.respond] using served
    have known : q.host < Config.requesters :=
      inv.pendingFromHosts (.request q) (head ▸ .head rest)
    subst own
    exact (inv.drop_pending head).snoc known

/-- R21: no case of a step touches the stored constants. -/
theorem step_keeps_rom (next : step s = .next t) : t.rom = s.rom := by
  obtain ⟨-, rfl⟩ | ⟨_, _, -, rfl⟩ | ⟨_, _, _, _, -, -, -, rfl⟩ := step_next_cases next
  · rfl
  · rfl
  · rfl

/-- R20: with nothing pending a step idles. -/
theorem step_of_pending_nil (nonePending : s.pending = []) : step s = .next s := by
  simp only [step, nonePending, idle]

/-! ## The statements -/

/-- Settles O5, by the cases of a step and the response of a transaction over the stored constants. -/
theorem everyStepKeepsTheInvariant : Obligations.EveryStepKeepsTheInvariant :=
  fun _ _ => step_keeps_inv

/-- Settles O3, by the cases of a step. -/
theorem noStepWritesTheConstants : Obligations.NoStepWritesTheConstants :=
  fun _ _ => step_keeps_rom

/-- Settles O1: the values are those of `romConstants`, and a reset only leaves the list of what is
pending. -/
theorem resetHoldsTheConstantsAndNoResponse : Obligations.ResetHoldsTheConstantsAndNoResponse :=
  ⟨rfl, rfl, rfl, rfl, rfl, fun _ inProgress _ head => ⟨_, step_reset inProgress head, rfl⟩⟩

/-- Settles O4, field by field of the invariant. -/
theorem invariantHoldsAtReset : Obligations.InvariantHoldsAtReset := reset_inv

/-- Settles O43: the step idles. -/
theorem nothingHappensWhileNothingIsPending : Obligations.NothingHappensWhileNothingIsPending :=
  fun _ => step_of_pending_nil

end Sys2Proof.Machine
end

section
/-! PROOFS. Cells, transactions and hosts (20_memory.md). Everything about hosts rests on one step: over the
stored constants a request that resolves adds the response of its own fields, to its own host's responses
only. A run is then an induction over the events. -/

namespace Sys2Proof.Machine

variable {s t : State} {q : Request} {rest : List Event} {a : Transaction}

/-! ## One transaction -/

/-- R47: a transaction presented as it stands is sampled as it stands and served. -/
theorem step_present {x : Accepted} (head : s.pending = x.present :: rest) :
    step s = serveTransaction x.transaction
      { s with pending := rest, accepted := s.accepted ++ [x] } :=
  step_request head (resolveCall_ofTransaction _ _)

/-- R50: over the stored constants a request that resolves is sampled and gets the response of its own
fields. -/
theorem step_request_specResponse (loaded : s.rom = romConstants)
    (head : s.pending = .request q :: rest)
    (resolved : resolveCall (s.responsesOf q.host) q.call = .ok a) :
    step s = .next ((State.accept q.host a { s with pending := rest }).respond (specResponse a)) :=
  (step_request head resolved).trans <|
    serveTransaction_eq_respond_specResponse (s := State.accept q.host a { s with pending := rest })
      loaded a

/-! ## What a host receives -/

/-- R50: sampling and answering adds the response to the host's own responses, and to no other's. -/
theorem responsesOf_accept_respond (answered : s.accepted.length = s.responses.length)
    (host : Nat) (r : Response) (h : Nat) :
    ((State.accept host a { s with pending := rest }).respond r).responsesOf h =
      s.responsesOf h ++ if host = h then [r] else [] :=
  responsesOf_snoc (answered := answered) ..

/-- A host whose calls all receive a response has a value for each name of the first. -/
theorem exists_resolveCall_of_hostResponses {c : Call} {calls : List Call}
    {received answers : List Response} (all : hostResponses (c :: calls) received = .ok answers) :
    ∃ b, resolveCall received c = .ok b := by
  cases resolved : resolveCall received c with
  | ok b => exact ⟨b, rfl⟩
  | error f => rw [hostResponses_cons_of_error calls resolved] at all; cases all

/-- Serving a request changes for no host what it receives in the end: its own host has one call less to
issue and that call's response, and every other host is as before. -/
theorem hostResponses_accept_respond (answered : s.accepted.length = s.responses.length)
    (resolved : resolveCall (s.responsesOf q.host) q.call = .ok a) (events : List Event) (host : Nat) :
    hostResponses (callsOf host events)
        (((State.accept q.host a { s with pending := rest }).respond (specResponse a)).responsesOf host) =
      hostResponses (callsOf host (.request q :: events)) (s.responsesOf host) := by
  rw [responsesOf_accept_respond answered, callsOf_request]
  by_cases own : q.host = host
  · subst own
    rw [if_pos rfl, if_pos rfl, hostResponses_cons_of_ok _ resolved]
  · rw [if_neg own, if_neg own, List.append_nil]

/-! ## A run of events -/

/-- A run of `k + 1` steps whose first answers `t` is a run of `k` steps from `t`. -/
theorem run_succ_of_step (next : step s = .next t) (k : Nat) :
    Host.Core.run core (k + 1) s = Host.Core.run core k t := by
  have coreNext : core.step s = .next t := next
  simp only [Host.Core.run, coreNext]

/-- R50, R74, R231: where every name has a value for its own host, a run of events completes and leaves
each host what `hostResponses` gives it for its own calls. -/
theorem run_gives_hostResponses {answers : Nat → List Response} (events : List Event)
    (loaded : s.rom = romConstants) (answered : s.accepted.length = s.responses.length)
    (waits : s.pending = events ++ rest)
    (receives : ∀ host, hostResponses (callsOf host events) (s.responsesOf host) = .ok (answers host)) :
    ∃ t, Host.Core.run core events.length s = .next t ∧ ∀ host, t.responsesOf host = answers host := by
  induction events generalizing s with
  | nil => exact ⟨s, rfl, fun host => Except.ok.inj (receives host)⟩
  | cons e events ih =>
    rw [List.length_cons]
    cases e with
    | reset inProgress =>
      rw [run_succ_of_step (step_reset inProgress waits)]
      exact ih loaded answered rfl receives
    | request q =>
      have ownCall := receives q.host
      rw [callsOf_request, if_pos rfl] at ownCall
      obtain ⟨a, resolved⟩ := exists_resolveCall_of_hostResponses ownCall
      rw [run_succ_of_step (step_request_specResponse loaded waits resolved)]
      exact ih loaded (by simp [answered]) rfl fun host =>
        (hostResponses_accept_respond answered resolved events host).trans (receives host)

/-! ## Transactions presented as they stand -/

/-- The calls of a host among presented transactions are its own transactions. -/
theorem callsOf_map_present (host : Nat) (issued : List Accepted) :
    callsOf host (issued.map Accepted.present) =
      (issued.filter (fun x => x.host == host)).map (fun x => Call.ofTransaction x.transaction) := by
  induction issued with
  | nil => rfl
  | cons x issued ih =>
    rw [List.map_cons, Accepted.present, callsOf_request, ih]
    by_cases own : x.host = host <;> simp [own]

/-- A host that presents transactions as they stand receives the response of each, in order. -/
theorem hostResponses_map_ofTransaction (issued : List Accepted) (received : List Response) :
    hostResponses (issued.map (fun x => Call.ofTransaction x.transaction)) received =
      .ok (received ++ issued.map (fun x => specResponse x.transaction)) := by
  induction issued generalizing received with
  | nil => simp
  | cons x issued ih =>
    rw [List.map_cons, hostResponses_cons_of_ok _ (resolveCall_ofTransaction _ _), ih]
    simp

/-! ## The statements -/

/-- Settles O45: what is answered is a function of the transaction and of the constants, which the first
step keeps. -/
theorem repeatingATransactionRepeatsItsResponse :
    Obligations.RepeatingATransactionRepeatsItsResponse := by
  intro s a b rest same head
  obtain ⟨r, answers⟩ := serveTransaction_next a.transaction s.rom
  have first := (step_present head).trans (answers _ rfl)
  rw [same] at answers
  refine ⟨r, _, _, first, (step_present rfl).trans (answers _ rfl), rfl, ?_⟩
  simp

/-- Settles O53: both runs leave each host what its own calls give, and those are the same. -/
theorem interleavingDoesNotChangeTheResultsOfNames :
    Obligations.InterleavingDoesNotChangeTheResultsOfNames := by
  intro s events events' answers loaded answered sameCalls receives
  obtain ⟨t, run, left⟩ := run_gives_hostResponses (s := { s with pending := events }) (rest := [])
    events loaded answered (List.append_nil _).symm receives
  obtain ⟨t', run', left'⟩ := run_gives_hostResponses (s := { s with pending := events' }) (rest := [])
    events' loaded answered (List.append_nil _).symm (fun host => sameCalls host ▸ receives host)
  exact ⟨t, t', run, run', fun host => ⟨left host, left' host⟩⟩

/-- Settles O47, as the case of O53 in which every operand is a literal. -/
theorem interleavingDoesNotChangeAHostsResponses :
    Obligations.InterleavingDoesNotChangeAHostsResponses := by
  intro s issued issued' loaded answered sameIssued
  obtain ⟨t, t', run, run', left⟩ := interleavingDoesNotChangeTheResultsOfNames s
    (issued.map Accepted.present) (issued'.map Accepted.present) _ loaded answered
    (fun host => by rw [callsOf_map_present, callsOf_map_present, sameIssued])
    (fun host => by rw [callsOf_map_present]; exact hostResponses_map_ofTransaction _ _)
  rw [List.length_map] at run run'
  exact ⟨t, t', run, run', fun host => ⟨(left host).1.trans (left host).2.symm, (left host).1⟩⟩

/-- Settles O48: whether and to what a request resolves depends on its own host's responses alone, and its
response goes to that host alone. -/
theorem aHostCannotObserveAnother : Obligations.AHostCannotObserveAnother := by
  intro s s' host q rest rest' inv inv' head head' alike
  cases resolved : resolveCall (s.responsesOf q.host) q.call with
  | error f =>
    have stops := step_request_fault q head resolved
    refine ⟨fun _ t next => ?_, fun own => ⟨fun t next => ?_, fun f' fault => ?_⟩⟩
    · cases stops.symm.trans next
    · cases stops.symm.trans next
    · subst own
      exact (step_request_fault q head' (alike ▸ resolved)).trans (stops.symm.trans fault)
  | ok a =>
    have goesOn := step_request_specResponse inv.constants head resolved
    refine ⟨fun other t next => ?_, fun own => ⟨fun t next => ?_, fun f fault => ?_⟩⟩
    · cases goesOn.symm.trans next
      rw [responsesOf_accept_respond inv.answered, if_neg other, List.append_nil]
    · cases goesOn.symm.trans next
      subst own
      refine ⟨_, step_request_specResponse inv'.constants head' (alike ▸ resolved), ?_⟩
      rw [responsesOf_accept_respond inv.answered, responsesOf_accept_respond inv'.answered, alike]
    · cases goesOn.symm.trans fault

/-- Settles O12: `cell` is defined at the table's bits, and packing and reading undo each other. -/
theorem packAndCellAreInverseAtTheTablesBits : Obligations.PackAndCellAreInverseAtTheTablesBits :=
  ⟨fun _ => ⟨rfl, rfl, rfl, rfl⟩, pack_cells, fun _ _ _ _ =>
    ⟨cell_pack_00 .., cell_pack_01 .., cell_pack_10 .., cell_pack_11 ..⟩⟩

/-- Settles O41: a presented transaction resolves to itself, and a word that decodes is served by `exec`. -/
theorem stepSamplesTheWordAndRunsItsInstruction :
    Obligations.StepSamplesTheWordAndRunsItsInstruction := by
  refine ⟨fun _ _ _ => step_present, fun s host cmd rest i head decoded => ?_⟩
  rw [step_request head (resolveCall_ofWord _ cmd)]
  simp only [serveTransaction, decoded]

end Sys2Proof.Machine
end

section
/-! PROOFS. The encoding (30_encoding.md). Decoding is said once, by opcode: 0xB and above are refused, and
below it the format of the opcode decides, by its reserved operand bits, between one operation, whose word is
the decoded word, and their error. The rows of the opcode table say the same in masks. The names `rN` rest on
what an operand stands for; the assembler rests on what is cut at its separators and on digits, none of
which is a space or a comma. -/

namespace Sys2Proof

/-! ## Decoding what was encoded (R60 to R67) -/

/-- R70: decoding an assembled word decodes its fields. -/
@[simp] theorem decode_commandWord (op : BitVec 4) (a b : BitVec 12) :
    decode (commandWord op a b) = decodeFields op a b := by
  simp [decode]

/-- R62: two field operands, written with their reserved bits zero. -/
theorem decodeFF2_fieldWord (make : FieldElement → FieldElement → Instr) (fa fb : FieldElement) :
    decodeFF2 make (fieldWord fa) (fieldWord fb) = .ok (make fa fb) := by
  simp [decodeFF2]

/-- R63: one field operand, written with its reserved bits zero. -/
theorem decodeFF1_fieldWord (make : FieldElement → Instr) (fa : FieldElement) :
    decodeFF1 make (fieldWord fa) 0 = .ok (make fa) := by
  simp [decodeFF1]

/-- R64: one block operand, with B zero. -/
theorem decodeFB1_zero (make : Block → Instr) (wa : Block) : decodeFB1 make wa 0 = .ok (make wa) :=
  if_pos rfl

/-- R66, R67: the operand fields an operation writes are read as its operands. -/
theorem decodeFields_operandFieldsOf (i : Instr) :
    decodeFields (opcodeOf i) (operandFieldsOf i).1 (operandFieldsOf i).2 = .ok i := by
  cases i with
  | gfadd fa fb => exact decodeFF2_fieldWord .gfadd fa fb
  | gfmul fa fb => exact decodeFF2_fieldWord .gfmul fa fb
  | gfinv fa => exact decodeFF1_fieldWord .gfinv fa
  | sub wa => exact decodeFB1_zero .sub wa
  | shiftf wa => exact decodeFB1_zero .shiftf wa
  | shifti wa => exact decodeFB1_zero .shifti wa
  | mixf wa => exact decodeFB1_zero .mixf wa
  | mixi wa => exact decodeFB1_zero .mixi wa
  | keymix wa kb => rfl
  | enc wa kb => rfl
  | dec wa kb => rfl

/-- R60 to R70: the word of an operation is read as the operation. -/
@[simp] theorem decode_encode (i : Instr) : decode (encode i) = .ok i :=
  (decode_commandWord ..).trans (decodeFields_operandFieldsOf i)

/-- R69: the word of an operation has its opcode. -/
@[simp] theorem opField_encode (i : Instr) : opField (encode i) = opcodeOf i :=
  opField_commandWord ..

/-! ## Formats and their reserved bits (R62 to R67, R69) -/

/-- R62 to R66: the reserved operand bits of a format are all zero. -/
def ReservedBitsClear : Format → BitVec 12 → BitVec 12 → Prop
  | .ff2, a, b => reservedHigh a = 0 ∧ reservedHigh b = 0
  | .ff1, a, b => reservedHigh a = 0 ∧ b = 0
  | .fb1, _, b => b = 0
  | .fb2, _, _ => True

/-- R69: the format of an opcode below 0xB. -/
def opcodeFormat (op : BitVec 4) : Format :=
  if op.toNat ≤ 1 then .ff2 else if op.toNat = 2 then .ff1 else if op.toNat ≤ 7 then .fb1 else .fb2

/-- R72, format by format: what it takes for a reserved operand bit to be set. -/
theorem not_reservedBitsClear_of_set {op : BitVec 4} {a b : BitVec 12}
    (set : op.toNat ≤ 1 ∧ (reservedHigh a ≠ 0 ∨ reservedHigh b ≠ 0) ∨
      op.toNat = 2 ∧ (reservedHigh a ≠ 0 ∨ b ≠ 0) ∨ 3 ≤ op.toNat ∧ op.toNat ≤ 7 ∧ b ≠ 0) :
    ¬ ReservedBitsClear (opcodeFormat op) a b := by
  obtain ⟨range, set⟩ | ⟨range, set⟩ | ⟨low, high, set⟩ := set
  · rw [opcodeFormat, if_pos range]
    exact not_and_or.2 set
  · rw [opcodeFormat, if_neg (by omega), if_pos range]
    exact not_and_or.2 set
  · rw [opcodeFormat, if_neg (by omega), if_neg (by omega), if_pos high]
    exact set

/-- R65: a block and a key leave no reserved bit. -/
theorem reservedBitsClear_of_ge {op : BitVec 4} (high : 8 ≤ op.toNat) (a b : BitVec 12) :
    ReservedBitsClear (opcodeFormat op) a b := by
  rw [opcodeFormat, if_neg (by omega), if_neg (by omega), if_neg (by omega)]
  exact trivial

/-! ## The rows of the opcode table (R69, R70) -/

/-- The places of the reserved operand bits of a format, in A and in B. -/
def reservedMasks : Format → BitVec 12 × BitVec 12
  | .ff2 => (0xFF8, 0xFF8)
  | .ff1 => (0xFF8, 0xFFF)
  | .fb1 => (0x000, 0xFFF)
  | .fb2 => (0x000, 0x000)

/-- A row's mask covers the opcode and the reserved bits of the row's format. -/
theorem mask_eq_of_mem : ∀ row ∈ opcodeTable,
    row.mask = commandWord 0xF (reservedMasks row.format).1 (reservedMasks row.format).2 := by
  decide

/-- Beside its opcode a row's pattern is zero. -/
theorem pattern_eq_of_mem : ∀ row ∈ opcodeTable,
    row.pattern = commandWord (opField row.pattern) 0 0 := by
  decide

theorem format_eq_of_mem : ∀ row ∈ opcodeTable, row.format = opcodeFormat (opField row.pattern) := by
  decide

theorem opField_pattern_lt_of_mem : ∀ row ∈ opcodeTable, (opField row.pattern).toNat < 0xB := by
  decide

theorem exists_row_of_lt : ∀ op : BitVec 4, op.toNat < 0xB →
    ∃ row ∈ opcodeTable, opField row.pattern = op := by
  decide

/-- No two rows have one opcode. -/
theorem eq_of_opField_pattern_eq : ∀ row ∈ opcodeTable, ∀ row' ∈ opcodeTable,
    opField row.pattern = opField row'.pattern → row = row' := by
  decide

/-- R60: a word has one opcode, one A and one B. -/
theorem commandWord_inj {op op' : BitVec 4} {a a' b b' : BitVec 12} :
    commandWord op a b = commandWord op' a' b' ↔ op = op' ∧ a = a' ∧ b = b' := by
  refine ⟨fun same => ⟨?_, ?_, ?_⟩, fun ⟨ops, as, bs⟩ => by rw [ops, as, bs]⟩
  · simpa using congrArg opField same
  · simpa using congrArg aField same
  · simpa using congrArg bField same

/-- R66: the mask 0xFF8 covers the high nine bits of an operand field. -/
theorem and_0xFF8_eq_zero_iff (x : BitVec 12) : x &&& 0xFF8#12 = 0 ↔ reservedHigh x = 0 := by
  constructor
  · intro clear
    calc reservedHigh x = reservedHigh x &&& BitVec.allOnes 9 := BitVec.and_allOnes.symm
      _ = reservedHigh (x &&& 0xFF8#12) :=
        (BitVec.extractLsb'_and (x := x) (y := 0xFF8#12)).symm
      _ = 0 := by rw [clear]; rfl
  · intro clear
    rw [← fieldWord_fieldOperand clear]
    exact fieldWord_and_reserved _

/-- R66, R67: a format's masks cover its reserved operand bits. -/
theorem and_reservedMasks_eq_zero_iff (f : Format) (a b : BitVec 12) :
    a &&& (reservedMasks f).1 = 0 ∧ b &&& (reservedMasks f).2 = 0 ↔ ReservedBitsClear f a b := by
  have whole : b &&& 0xFFF#12 = b := BitVec.and_allOnes
  cases f with
  | ff2 => exact and_congr (and_0xFF8_eq_zero_iff a) (and_0xFF8_eq_zero_iff b)
  | ff1 => exact and_congr (and_0xFF8_eq_zero_iff a) (iff_of_eq (congrArg (· = 0) whole))
  | fb1 => simp [reservedMasks, ReservedBitsClear, whole]
  | fb2 => simp [reservedMasks, ReservedBitsClear]

/-- R70: a word lies in a row exactly when it has the row's opcode and no reserved operand bit set. -/
theorem matches_row_iff {row : OpcodeRow} (mem : row ∈ opcodeTable) (cmd : Command) :
    cmd &&& row.mask = row.pattern ↔ opField cmd = opField row.pattern ∧
      ReservedBitsClear (opcodeFormat (opField cmd)) (aField cmd) (bField cmd) := by
  have masked : cmd &&& row.mask = commandWord (opField cmd)
      (aField cmd &&& (reservedMasks row.format).1) (bField cmd &&& (reservedMasks row.format).2) := by
    conv_lhs => rw [mask_eq_of_mem row mem, ← commandWord_fields cmd, commandWord_and]
    exact congrArg (commandWord · _ _) BitVec.and_allOnes
  rw [masked, pattern_eq_of_mem row mem, commandWord_inj, and_reservedMasks_eq_zero_iff,
    opField_commandWord, format_eq_of_mem row mem]
  exact and_congr_right fun own => by rw [own]

/-- R70: a word lies in some row exactly when its opcode is not reserved and its reserved operand bits are
zero. -/
theorem exists_row_iff (cmd : Command) : (∃ row ∈ opcodeTable, cmd &&& row.mask = row.pattern) ↔
    (opField cmd).toNat < 0xB ∧
      ReservedBitsClear (opcodeFormat (opField cmd)) (aField cmd) (bField cmd) := by
  constructor
  · rintro ⟨row, mem, held⟩
    obtain ⟨own, clear⟩ := (matches_row_iff mem cmd).1 held
    exact ⟨own ▸ opField_pattern_lt_of_mem row mem, clear⟩
  · rintro ⟨defined, clear⟩
    obtain ⟨row, mem, own⟩ := exists_row_of_lt _ defined
    exact ⟨row, mem, (matches_row_iff mem cmd).2 ⟨own.symm, clear⟩⟩

/-- R70: a word lies in at most one row. -/
theorem row_unique {cmd : Command} {row row' : OpcodeRow} (mem : row ∈ opcodeTable)
    (mem' : row' ∈ opcodeTable) (held : cmd &&& row.mask = row.pattern)
    (held' : cmd &&& row'.mask = row'.pattern) : row = row' :=
  eq_of_opField_pattern_eq row mem row' mem' <|
    ((matches_row_iff mem cmd).1 held).1.symm.trans ((matches_row_iff mem' cmd).1 held').1

/-! ## What decoding can do (R70 to R72) -/

/-- R70, R72: the answer is an operation of the word `{op, a, b}` if the reserved bits of the format are
clear, and their error otherwise. -/
def ReadsOrRefuses (f : Format) (op : BitVec 4) (a b : BitVec 12) (answer : Except ErrorKind Instr) : Prop :=
  (ReservedBitsClear f a b ∧ ∃ i, answer = .ok i ∧ encode i = commandWord op a b) ∨
  (¬ ReservedBitsClear f a b ∧ answer = .error .reservedOperandBits)

theorem decodeFF2_readsOrRefuses {make : FieldElement → FieldElement → Instr} {op : BitVec 4}
    (writes : ∀ fa fb, encode (make fa fb) = commandWord op (fieldWord fa) (fieldWord fb))
    (a b : BitVec 12) : ReadsOrRefuses .ff2 op a b (decodeFF2 make a b) := by
  unfold decodeFF2
  split_ifs with clear
  · refine .inl ⟨clear, _, rfl, ?_⟩
    rw [writes, fieldWord_fieldOperand clear.1, fieldWord_fieldOperand clear.2]
  · exact .inr ⟨clear, rfl⟩

theorem decodeFF1_readsOrRefuses {make : FieldElement → Instr} {op : BitVec 4}
    (writes : ∀ fa, encode (make fa) = commandWord op (fieldWord fa) 0) (a b : BitVec 12) :
    ReadsOrRefuses .ff1 op a b (decodeFF1 make a b) := by
  unfold decodeFF1
  split_ifs with clear
  · refine .inl ⟨clear, _, rfl, ?_⟩
    rw [writes, fieldWord_fieldOperand clear.1, clear.2]
  · exact .inr ⟨clear, rfl⟩

theorem decodeFB1_readsOrRefuses {make : Block → Instr} {op : BitVec 4}
    (writes : ∀ wa, encode (make wa) = commandWord op wa 0) (a b : BitVec 12) :
    ReadsOrRefuses .fb1 op a b (decodeFB1 make a b) := by
  unfold decodeFB1
  split_ifs with clear
  · exact .inl ⟨clear, _, rfl, clear ▸ writes a⟩
  · exact .inr ⟨clear, rfl⟩

theorem decodeFB2_readsOrRefuses {make : Block → Key → Instr} {op : BitVec 4}
    (writes : ∀ wa kb, encode (make wa kb) = commandWord op wa kb) (a b : BitVec 12) :
    ReadsOrRefuses .fb2 op a b (decodeFB2 make a b) :=
  .inl ⟨trivial, _, rfl, writes a b⟩

/-- R70: the opcode of each row is decoded in the row's format. -/
theorem decodeFields_row_readsOrRefuses : ∀ row ∈ opcodeTable, ∀ a b : BitVec 12,
    ReadsOrRefuses row.format (opField row.pattern) a b (decodeFields (opField row.pattern) a b) := by
  simp only [opcodeTable, List.forall_mem_cons]
  exact ⟨decodeFF2_readsOrRefuses (make := .gfadd) fun _ _ => rfl,
    decodeFF2_readsOrRefuses (make := .gfmul) fun _ _ => rfl,
    decodeFF1_readsOrRefuses (make := .gfinv) fun _ => rfl,
    decodeFB1_readsOrRefuses (make := .sub) fun _ => rfl,
    decodeFB1_readsOrRefuses (make := .shiftf) fun _ => rfl,
    decodeFB1_readsOrRefuses (make := .shifti) fun _ => rfl,
    decodeFB1_readsOrRefuses (make := .mixf) fun _ => rfl,
    decodeFB1_readsOrRefuses (make := .mixi) fun _ => rfl,
    decodeFB2_readsOrRefuses (make := .keymix) fun _ _ => rfl,
    decodeFB2_readsOrRefuses (make := .enc) fun _ _ => rfl,
    decodeFB2_readsOrRefuses (make := .dec) fun _ _ => rfl,
    List.forall_mem_nil _⟩

/-- R70, R72: an opcode below 0xB is decoded in its own format. -/
theorem decodeFields_readsOrRefuses {op : BitVec 4} (defined : op.toNat < 0xB) (a b : BitVec 12) :
    ReadsOrRefuses (opcodeFormat op) op a b (decodeFields op a b) := by
  obtain ⟨row, mem, rfl⟩ := exists_row_of_lt op defined
  exact format_eq_of_mem row mem ▸ decodeFields_row_readsOrRefuses row mem a b

/-- R71: an opcode from 0xB up is reserved, whatever the operand fields hold. -/
theorem decodeFields_of_reserved {op : BitVec 4} (reserved : 0xB ≤ op.toNat) (a b : BitVec 12) :
    decodeFields op a b = .error .reservedOpcode := by
  unfold decodeFields
  split
  iterate 11 · omega
  · rfl

/-- R70 to R72: decoding refuses the opcode, reads an operation of the word, or refuses the operand bits. -/
theorem decode_cases (cmd : Command) :
    (0xB ≤ (opField cmd).toNat ∧ decode cmd = .error .reservedOpcode) ∨
    (opField cmd).toNat < 0xB ∧
      ((ReservedBitsClear (opcodeFormat (opField cmd)) (aField cmd) (bField cmd) ∧
          ∃ i, decode cmd = .ok i ∧ encode i = cmd) ∨
        (¬ ReservedBitsClear (opcodeFormat (opField cmd)) (aField cmd) (bField cmd) ∧
          decode cmd = .error .reservedOperandBits)) := by
  by_cases reserved : 0xB ≤ (opField cmd).toNat
  · exact .inl ⟨reserved, decodeFields_of_reserved reserved _ _⟩
  · have defined : (opField cmd).toNat < 0xB := by omega
    have answer := decodeFields_readsOrRefuses defined (aField cmd) (bField cmd)
    rw [ReadsOrRefuses, commandWord_fields] at answer
    exact .inr ⟨defined, answer⟩

/-- R70: a word is read exactly when its opcode is not reserved and its reserved operand bits are zero. -/
theorem exists_decode_iff (cmd : Command) : (∃ i, decode cmd = .ok i) ↔
    (opField cmd).toNat < 0xB ∧
      ReservedBitsClear (opcodeFormat (opField cmd)) (aField cmd) (bField cmd) := by
  obtain ⟨reserved, refused⟩ | ⟨defined, ⟨clear, i, read, -⟩ | ⟨set, refused⟩⟩ := decode_cases cmd
  · simp [refused, reserved]
  · exact iff_of_true ⟨i, read⟩ ⟨defined, clear⟩
  · simp [refused, set]

/-- R66, R72: no bit of a word is ignored. -/
theorem encode_of_decode {cmd : Command} {i : Instr} (decoded : decode cmd = .ok i) :
    encode i = cmd := by
  obtain ⟨-, refused⟩ | ⟨-, ⟨-, j, read, written⟩ | ⟨-, refused⟩⟩ := decode_cases cmd
  · cases refused.symm.trans decoded
  · cases read.symm.trans decoded
    exact written
  · cases refused.symm.trans decoded

/-- R70 to R72: the opcode of a word outside the table decides its status. -/
theorem decode_of_no_row {cmd : Command}
    (outside : ∀ row ∈ opcodeTable, cmd &&& row.mask ≠ row.pattern) : decode cmd = .error
      (if 0xB ≤ (opField cmd).toNat then .reservedOpcode else .reservedOperandBits) := by
  obtain ⟨reserved, refused⟩ | ⟨defined, ⟨clear, -⟩ | ⟨-, refused⟩⟩ := decode_cases cmd
  · rw [refused, if_pos reserved]
  · obtain ⟨row, mem, held⟩ := (exists_row_iff cmd).2 ⟨defined, clear⟩
    exact absurd held (outside row mem)
  · rw [refused, if_neg (by omega)]

/-- R72: a set reserved operand bit of an opcode below 0xB is refused. -/
theorem decode_of_reservedBits_set {op : BitVec 4} {a b : BitVec 12} (defined : op.toNat < 0xB)
    (set : ¬ ReservedBitsClear (opcodeFormat op) a b) :
    decode (commandWord op a b) = .error .reservedOperandBits := by
  obtain ⟨clear, -⟩ | ⟨-, refused⟩ := decodeFields_readsOrRefuses defined a b
  · exact absurd clear set
  · exact (decode_commandWord op a b).trans refused

/-- R70: a number that is a table word is a command word that decodes. -/
theorem decode_of_decodeTableWord {nbits w : Nat} {i : Instr}
    (read : decodeTableWord nbits w = some i) :
    decode (BitVec.ofNat 28 (w % 2 ^ nbits)) = .ok i := by
  simp only [decodeTableWord] at read
  split at read
  · split at read
    next decoded => rw [decoded, Option.some.inj read]
    next => cases read
  · cases read

end Sys2Proof

namespace Sys2Proof.Machine

/-- R201, R202: a word that is not read is answered with the decoder's status and nothing else. -/
theorem serveTransaction_of_decode_error {cmd : Command} {e : ErrorKind}
    (refused : decode cmd = .error e) (s : State) :
    serveTransaction (.command cmd) s = .next { s with responses := s.responses ++ [.error e] } := by
  simp only [serveTransaction, refused, raise_eq_next]

/-! ## What a name stands for (R74, R206, R235) -/

section Names

variable {α : Type} {answers : List Response} (lift : Block → α)

theorem operandValue_result_of_done {n : Nat} {r : Block} (arrived : answers[n]? = some (.done r)) :
    operandValue answers lift (.result (n + 1)) = .ok (lift r) := by
  simp only [operandValue, arrived]

theorem operandValue_result_of_error {n : Nat} {e : ErrorKind}
    (arrived : answers[n]? = some (.error e)) :
    operandValue answers lift (.result (n + 1)) = .error .noResultWord := by
  simp only [operandValue, arrived]

theorem operandValue_result_of_not_arrived {n : Nat} (missing : n = 0 ∨ answers.length < n) :
    operandValue answers lift (.result n) = .error .responseNotArrived := by
  cases n with
  | zero => rfl
  | succ n =>
    have beyond : answers[n]? = none := List.getElem?_eq_none (by omega)
    simp only [operandValue, beyond]

/-- Of two operands only their values are seen. -/
theorem operandValues_congr {x x' y y' : Operand α}
    (first : operandValue answers lift x = operandValue answers lift x')
    (second : operandValue answers lift y = operandValue answers lift y') :
    operandValues answers lift x y = operandValues answers lift x' y' := by
  simp only [operandValues, first, second]

/-- The first operand is looked up first (log entry 8). -/
theorem operandValues_of_first_error {x : Operand α} {f : Fault}
    (stops : operandValue answers lift x = .error f) (y : Operand α) :
    operandValues answers lift x y = .error f := by
  simp only [operandValues, stops]

theorem operandValues_of_second_error {y : Operand α} {f : Fault}
    (stops : operandValue answers lift y = .error f) (x : α) :
    operandValues answers lift (.lit x) y = .error f := by
  simp only [operandValues, stops]
  rfl

/-- A call presents what its two operands stand for, and sees nothing else of them. -/
def PresentsOperandValues (call : Operand α → Operand α → Call) : Prop :=
  ∃ present : α × α → Transaction, ∀ answers x y,
    resolveCall answers (call x y) = (operandValues answers lift x y).map present

theorem command_presentsOperandValues (op : BitVec 4) :
    PresentsOperandValues id (Call.command op) := by
  refine ⟨fun v => .command (commandWord op v.1 v.2), fun answers x y => ?_⟩
  simp only [resolveCall]
  cases operandValues answers id x y <;> rfl

theorem encryptBlock_presentsOperandValues :
    PresentsOperandValues BitVec.toNat Call.encryptBlock := by
  refine ⟨fun v => .encryptBlock v.1 v.2, fun answers x y => ?_⟩
  simp only [resolveCall]
  cases operandValues answers BitVec.toNat x y <;> rfl

theorem decryptBlock_presentsOperandValues :
    PresentsOperandValues BitVec.toNat Call.decryptBlock := by
  refine ⟨fun v => .decryptBlock v.1 v.2, fun answers x y => ?_⟩
  simp only [resolveCall]
  cases operandValues answers BitVec.toNat x y <;> rfl

/-- Two calls of a host that resolve alike are served alike. -/
theorem step_request_congr {s : State} {host : Nat} {c c' : Call} (rest : List Event)
    (alike : resolveCall (s.responsesOf host) c = resolveCall (s.responsesOf host) c') :
    step { s with pending := .request ⟨host, c⟩ :: rest } =
      step { s with pending := .request ⟨host, c'⟩ :: rest } := by
  simp only [step, serveEvent, serveRequest, State.responsesOf_pending, alike]

/-- R74: the rules of names hold of every form of call that presents what its operands stand for. -/
theorem namesStandForResults_of_presentsOperandValues {call : Operand α → Operand α → Call}
    (looked : PresentsOperandValues lift call) : Claims.NamesStandForResults lift call := by
  obtain ⟨present, resolves⟩ := looked
  intro s host rest
  have alike {x x' y y' : Operand α}
      (same : operandValues (s.responsesOf host) lift x y =
        operandValues (s.responsesOf host) lift x' y') :
      step { s with pending := .request ⟨host, call x y⟩ :: rest } =
        step { s with pending := .request ⟨host, call x' y'⟩ :: rest } :=
    step_request_congr rest (by rw [resolves, resolves, same])
  have stops {x y : Operand α} {f : Fault}
      (fault : operandValues (s.responsesOf host) lift x y = .error f) :
      step { s with pending := .request ⟨host, call x y⟩ :: rest } = .fault f :=
    step_request_fault ⟨host, call x y⟩ rfl
      ((resolves ..).trans (congrArg (Except.map present) fault))
  have stopsInEither {z : Operand α} {f : Fault}
      (fault : operandValue (s.responsesOf host) lift z = .error f) :
      (∀ y, step { s with pending := .request ⟨host, call z y⟩ :: rest } = .fault f) ∧
        ∀ x, step { s with pending := .request ⟨host, call (.lit x) z⟩ :: rest } = .fault f :=
    ⟨fun y => stops (operandValues_of_first_error lift fault y),
      fun x => stops (operandValues_of_second_error lift fault x)⟩
  refine ⟨fun n r x arrived => ?_, fun n e arrived => ?_, fun n missing => ?_⟩
  · have value := operandValue_result_of_done lift arrived
    exact ⟨alike (operandValues_congr lift value rfl), alike (operandValues_congr lift rfl value)⟩
  · exact stopsInEither (operandValue_result_of_error lift arrived)
  · exact stopsInEither (operandValue_result_of_not_arrived lift missing)

end Names

/-! ## Spaces and separators (R74) -/

/-- A text is cut at its first separator. -/
theorem cutAt_append {sep : Char} {before : List Char} (absent : sep ∉ before) (after : List Char) :
    cutAt sep (before ++ sep :: after) = (before, some after) := by
  induction before with
  | nil => simp [cutAt]
  | cons c cs ih =>
    have ne : c ≠ sep := (List.ne_of_not_mem_cons absent).symm
    simp [cutAt, ne, ih (List.not_mem_of_not_mem_cons absent)]

theorem skipSpaces_of_not_mem {cs : List Char} (absent : ' ' ∉ cs) : skipSpaces cs = cs := by
  cases cs with
  | nil => rfl
  | cons c cs => exact skipSpaces_cons_of_ne cs (List.ne_of_not_mem_cons absent).symm

theorem trimSpaces_of_not_mem {cs : List Char} (absent : ' ' ∉ cs) : trimSpaces cs = cs := by
  have absentReversed : ' ' ∉ cs.reverse := by rwa [List.mem_reverse]
  rw [trimSpaces, skipSpaces_of_not_mem absent, skipSpaces_of_not_mem absentReversed,
    List.reverse_reverse]

theorem trimSpaces_cons_space (cs : List Char) : trimSpaces (' ' :: cs) = trimSpaces cs := rfl

/-! ## Numbers and operands (R74) -/

/-- What is read as digits holds no space. -/
theorem space_not_mem_of_digitsValue {base acc n : Nat} {cs : List Char}
    (read : digitsValue base acc cs = some n) : ' ' ∉ cs := by
  induction cs generalizing acc with
  | nil => exact List.not_mem_nil
  | cons c cs ih =>
    simp only [digitsValue] at read
    split at read
    next d digit =>
      split at read
      · refine List.not_mem_cons_of_ne_of_not_mem ?_ (ih read)
        rintro rfl
        cases digit
      · cases read
    next => cases read

theorem space_not_mem_of_number {base n : Nat} {cs : List Char} (read : number base cs = some n) :
    ' ' ∉ cs := by
  cases cs with
  | nil => exact List.not_mem_nil
  | cons c cs => exact space_not_mem_of_digitsValue read

theorem space_not_mem_of_literal {cs : List Char} {n : Nat} (read : literal cs = some n) :
    ' ' ∉ cs := by
  unfold literal at read
  split at read
  · simpa using space_not_mem_of_number read
  · simpa using space_not_mem_of_number read
  · exact space_not_mem_of_number read

/-- A literal within the bound is an operand; it is no name, since no literal begins with `r`. -/
theorem operandText_of_literal {cs : List Char} {n bound : Nat} (read : literal cs = some n)
    (fits : n ≤ bound) : operandText bound cs = some (.lit (BitVec.ofNat 12 n)) := by
  unfold operandText
  split
  · cases read
  · simp [read, fits]

theorem operandText_of_name {digits : List Char} {n : Nat} (read : number 10 digits = some n)
    (bound : Nat) : operandText bound ('r' :: digits) = some (.result n) := by
  simp only [operandText, read]

/-- A written hexadecimal digit is read as one more digit of its value. -/
theorem digitsValue_hexDigit_cons (acc : Nat) (d : BitVec 4) (cs : List Char) :
    digitsValue 16 acc (hexDigit d :: cs) = digitsValue 16 (16 * acc + d.toNat) cs := by
  have small : d.toNat < 16 := d.isLt
  simp only [digitsValue, digitValue_hexDigit, if_pos small]

/-- R11: the three hex digits of a block are read as its value. -/
theorem literal_blockText (w : Block) : literal (blockText w) = some w.toNat := by
  have digits : literal (blockText w) = digitsValue 16 0
      [hexDigit (w.extractLsb' 8 4), hexDigit (w.extractLsb' 4 4), hexDigit (w.extractLsb' 0 4)] := rfl
  rw [digits, digitsValue_hexDigit_cons, digitsValue_hexDigit_cons, digitsValue_hexDigit_cons,
    digitsValue]
  simp only [BitVec.extractLsb'_toNat, Nat.shiftRight_eq_div_pow]
  congr 1
  omega

/-- A written block operand reads as its word. -/
theorem operandText_blockText (w : Block) : operandText 4095 (blockText w) = some (.lit w) := by
  have fits : w.toNat ≤ 4095 := by omega
  rw [operandText_of_literal (literal_blockText w) fits, BitVec.ofNat_toNat, BitVec.setWidth_eq]

theorem space_not_mem_fieldText (f : FieldElement) : ' ' ∉ fieldText f := by
  simp [fieldText, (hexDigit_ne_space _).symm]

theorem comma_not_mem_fieldText (f : FieldElement) : ',' ∉ fieldText f := by
  simp [fieldText, (hexDigit_ne_comma _).symm]

theorem space_not_mem_blockText (w : Block) : ' ' ∉ blockText w := by
  simp [blockText, (hexDigit_ne_space _).symm]

theorem comma_not_mem_blockText (w : Block) : ',' ∉ blockText w := by
  simp [blockText, (hexDigit_ne_comma _).symm]

/-! ## The operands of a command (R74) -/

/-- The call of a command with one operand, if its text is read. -/
theorem assembleOne_eq_map (op : BitVec 4) (bound : Nat) (text : List Char) :
    assembleOne op bound text =
      (operandText bound (trimSpaces text)).map fun x => .command op x (.lit 0) := by
  unfold assembleOne
  cases operandText bound (trimSpaces text) <;> rfl

theorem assembleOne_of_operandText {op : BitVec 4} {bound : Nat} {text : List Char}
    {x : Operand (BitVec 12)} (noSpace : ' ' ∉ text) (read : operandText bound text = some x) :
    assembleOne op bound text = some (.command op x (.lit 0)) := by
  rw [assembleOne_eq_map, trimSpaces_of_not_mem noSpace, read, Option.map_some]

theorem assembleTwo_of_operandText {op : BitVec 4} {bound : Nat} {first second : List Char}
    {x y : Operand (BitVec 12)} (noComma : ',' ∉ first) (noSpace : ' ' ∉ first)
    (noSpace' : ' ' ∉ second) (read : operandText bound first = some x)
    (read' : operandText bound second = some y) :
    assembleTwo op bound (first ++ [',', ' '] ++ second) = some (.command op x y) := by
  rw [List.append_assoc]
  simp only [assembleTwo, List.cons_append, List.nil_append, cutAt_append noComma,
    trimSpaces_cons_space, trimSpaces_of_not_mem noSpace, trimSpaces_of_not_mem noSpace', read, read']

theorem command_of_assembleOne {op : BitVec 4} {bound : Nat} {text : List Char} {c : Call}
    (built : assembleOne op bound text = some c) : ∃ x y, c = .command op x y := by
  rw [assembleOne_eq_map] at built
  obtain ⟨x, -, rfl⟩ := Option.map_eq_some_iff.1 built
  exact ⟨x, _, rfl⟩

theorem command_of_assembleTwo {op : BitVec 4} {bound : Nat} {text : List Char} {c : Call}
    (built : assembleTwo op bound text = some c) : ∃ x y, c = .command op x y := by
  unfold assembleTwo at built
  split at built
  · cases built
  · split at built
    next x y _ _ => exact ⟨x, y, (Option.some.inj built).symm⟩
    next => cases built

/-- R66, R67: the operands of a command, read in its format. -/
def assembleOperands (op : BitVec 4) (f : Format) (text : List Char) : Option Call :=
  match f with
  | .ff2 => assembleTwo op 7 text
  | .ff1 => assembleOne op 7 text
  | .fb1 => assembleOne op 4095 text
  | .fb2 => assembleTwo op 4095 text

theorem command_of_assembleOperands {op : BitVec 4} {f : Format} {text : List Char} {c : Call}
    (built : assembleOperands op f text = some c) : ∃ x y, c = .command op x y := by
  cases f with
  | ff2 => exact command_of_assembleTwo built
  | ff1 => exact command_of_assembleOne built
  | fb1 => exact command_of_assembleOne built
  | fb2 => exact command_of_assembleTwo built

/-- R74: the operands written for an operation are read as its operand fields. -/
theorem assembleOperands_operandsText (i : Instr) :
    assembleOperands (opcodeOf i) (opcodeFormat (opcodeOf i)) (operandsText i) =
      some (.command (opcodeOf i) (.lit (operandFieldsOf i).1) (.lit (operandFieldsOf i).2)) := by
  have twoFields (op : BitVec 4) (fa fb : FieldElement) :
      assembleTwo op 7 (fieldText fa ++ [',', ' '] ++ fieldText fb) =
        some (.command op (.lit (fieldWord fa)) (.lit (fieldWord fb))) :=
    assembleTwo_of_operandText (comma_not_mem_fieldText fa) (space_not_mem_fieldText fa)
      (space_not_mem_fieldText fb) (operandText_fieldText fa) (operandText_fieldText fb)
  have oneBlock (op : BitVec 4) (wa : Block) :
      assembleOne op 4095 (blockText wa) = some (.command op (.lit wa) (.lit 0)) :=
    assembleOne_of_operandText (space_not_mem_blockText wa) (operandText_blockText wa)
  have twoBlocks (op : BitVec 4) (wa : Block) (kb : Key) :
      assembleTwo op 4095 (blockText wa ++ [',', ' '] ++ blockText kb) =
        some (.command op (.lit wa) (.lit kb)) :=
    assembleTwo_of_operandText (comma_not_mem_blockText wa) (space_not_mem_blockText wa)
      (space_not_mem_blockText kb) (operandText_blockText wa) (operandText_blockText kb)
  cases i with
  | gfadd fa fb => exact twoFields 0x0 fa fb
  | gfmul fa fb => exact twoFields 0x1 fa fb
  | gfinv fa => exact assembleOne_of_operandText (space_not_mem_fieldText fa) (operandText_fieldText fa)
  | sub wa => exact oneBlock 0x3 wa
  | shiftf wa => exact oneBlock 0x4 wa
  | shifti wa => exact oneBlock 0x5 wa
  | mixf wa => exact oneBlock 0x6 wa
  | mixi wa => exact oneBlock 0x7 wa
  | keymix wa kb => exact twoBlocks 0x8 wa kb
  | enc wa kb => exact twoBlocks 0x9 wa kb
  | dec wa kb => exact twoBlocks 0xA wa kb

/-! ## Mnemonics and whole commands (R74, R75) -/

/-- R74: a command is a mnemonic of the table, a space, and operands read in its format. -/
theorem assemble_eq_bind (text : List Char) : assemble text =
    (mnemonicTable.lookup (cutAt ' ' (skipSpaces text)).1).bind fun row =>
      (cutAt ' ' (skipSpaces text)).2.bind (assembleOperands row.1 row.2) := by
  unfold assemble
  rcases cutAt ' ' (skipSpaces text) with ⟨name, operands⟩
  dsimp only
  rcases mnemonicTable.lookup name with _ | ⟨op, f⟩
  · rfl
  · cases operands with
    | none => cases f <;> rfl
    | some rest => cases f <;> rfl

theorem lookup_mnemonicText (i : Instr) :
    mnemonicTable.lookup (mnemonicText i) = some (opcodeOf i, opcodeFormat (opcodeOf i)) := by
  cases i <;> rfl

theorem exists_instr_of_mem_mnemonicTable : ∀ row ∈ mnemonicTable,
    ∃ i, row.1 = mnemonicText i ∧ row.2.1 = opcodeOf i := by
  simp only [mnemonicTable, List.forall_mem_cons]
  exact ⟨⟨.gfadd 0 0, rfl, rfl⟩, ⟨.gfmul 0 0, rfl, rfl⟩, ⟨.gfinv 0, rfl, rfl⟩, ⟨.sub 0, rfl, rfl⟩,
    ⟨.shiftf 0, rfl, rfl⟩, ⟨.shifti 0, rfl, rfl⟩, ⟨.mixf 0, rfl, rfl⟩, ⟨.mixi 0, rfl, rfl⟩,
    ⟨.keymix 0 0, rfl, rfl⟩, ⟨.enc 0 0, rfl, rfl⟩, ⟨.dec 0 0, rfl, rfl⟩, List.forall_mem_nil _⟩

theorem space_not_mem_mnemonicText (i : Instr) : ' ' ∉ mnemonicText i := by
  cases i <;> simp [mnemonicText]

/-- R74: a text that begins with an operation's mnemonic is read with its opcode and in its format. -/
theorem assemble_mnemonicText (i : Instr) (rest : List Char) :
    assemble (mnemonicText i ++ ' ' :: rest) =
      assembleOperands (opcodeOf i) (opcodeFormat (opcodeOf i)) rest := by
  have start : skipSpaces (mnemonicText i ++ ' ' :: rest) = mnemonicText i ++ ' ' :: rest := by
    cases i <;> rfl
  rw [assemble_eq_bind, start, cutAt_append (space_not_mem_mnemonicText i), lookup_mnemonicText]
  rfl

/-- R74: the text of an operation is read as its opcode and its operand fields. -/
theorem assemble_disassemble (i : Instr) : assemble (disassemble i) =
    some (.command (opcodeOf i) (.lit (operandFieldsOf i).1) (.lit (operandFieldsOf i).2)) :=
  (assemble_mnemonicText i _).trans (assembleOperands_operandsText i)

/-- R75: a text that is read names an operation and gets that operation's opcode. -/
theorem mnemonic_and_opcode_of_assemble {text : List Char} {c : Call}
    (built : assemble text = some c) : ∃ (i : Instr) (x y : Operand (BitVec 12)),
      (cutAt ' ' (skipSpaces text)).1 = mnemonicText i ∧ c = .command (opcodeOf i) x y := by
  rw [assemble_eq_bind] at built
  obtain ⟨⟨op, f⟩, found, built⟩ := Option.bind_eq_some_iff.1 built
  obtain ⟨rest, -, built⟩ := Option.bind_eq_some_iff.1 built
  obtain ⟨x, y, rfl⟩ := command_of_assembleOperands built
  obtain ⟨before, after, parts, -⟩ := List.lookup_eq_some_iff.1 found
  have mem : ((cutAt ' ' (skipSpaces text)).1, op, f) ∈ mnemonicTable :=
    parts ▸ List.mem_append_cons_self
  obtain ⟨i, named, rfl⟩ := exists_instr_of_mem_mnemonicTable _ mem
  exact ⟨i, x, y, named, rfl⟩

theorem assemble_shifti (text : List Char) :
    assemble ("shifti ".toList ++ text) = assembleOne 0x5 4095 text :=
  assemble_mnemonicText (.shifti 0) text

theorem assemble_shiftf (text : List Char) :
    assemble ("shiftf ".toList ++ text) = assembleOne 0x4 4095 text :=
  assemble_mnemonicText (.shiftf 0) text

/-! ## The statements -/

/-- Settles O7: format by format, what an operation writes in its operand fields is read as its operands. -/
theorem decodeOfEncodeIsTheInstruction : Obligations.DecodeOfEncodeIsTheInstruction := decode_encode

/-- Settles O8, by the cases of decoding. -/
theorem encodeOfDecodeIsTheWord : Obligations.EncodeOfDecodeIsTheWord := fun _ _ => encode_of_decode

/-- Settles O9: to be read and to lie in a row are both to have a defined opcode and no reserved bit set. -/
theorem wordsAreValidExactlyWhenOneRowMatches : Obligations.WordsAreValidExactlyWhenOneRowMatches :=
  ⟨fun cmd => (exists_decode_iff cmd).trans (exists_row_iff cmd).symm,
    fun _ _ mem _ mem' => row_unique mem mem',
    fun _ => decode_of_no_row,
    fun _ i decoded => encode_of_decode decoded ▸ (opField_encode i).symm⟩

/-- Settles O10: the decoder's error is the response. -/
theorem reservedOpcodesAreAnsweredReservedOpcode : Obligations.ReservedOpcodesAreAnsweredReservedOpcode :=
  fun s _ reserved => serveTransaction_of_decode_error (decodeFields_of_reserved reserved _ _) s

/-- Settles O11, by the format of the opcode. -/
theorem reservedOperandBitsAreAnsweredReservedOperandBits :
    Obligations.ReservedOperandBitsAreAnsweredReservedOperandBits := by
  refine ⟨fun s op a b set => serveTransaction_of_decode_error ?_ s, fun op a b low high => ?_⟩
  · exact decode_of_reservedBits_set (by omega) (not_reservedBitsClear_of_set set)
  · obtain ⟨-, i, read, -⟩ | ⟨set, -⟩ := decodeFields_readsOrRefuses (op := op) (by omega) a b
    · exact ⟨i, (decode_commandWord op a b).trans read⟩
    · exact absurd (reservedBitsClear_of_ge low a b) set

/-- Settles O44: all three forms of call present what their operands stand for. -/
theorem resultNamesStandForTheHostsOwnResults : Obligations.ResultNamesStandForTheHostsOwnResults :=
  ⟨fun op => namesStandForResults_of_presentsOperandValues _ (command_presentsOperandValues op),
    namesStandForResults_of_presentsOperandValues _ encryptBlock_presentsOperandValues,
    namesStandForResults_of_presentsOperandValues _ decryptBlock_presentsOperandValues⟩

/-- Settles O50: the written operands are read as the operand fields of the word. -/
theorem assemblingTheTextOfAnInstructionGivesItsWord :
    Obligations.AssemblingTheTextOfAnInstructionGivesItsWord := by
  intro i
  rw [assemble_disassemble, Call.ofWord, encode, opField_commandWord, aField_commandWord,
    bField_commandWord]

/-- Settles O51: after `shifti ` and `shiftf ` the same operand is read, each under its own opcode. -/
theorem shiftiIsNeverAssembledAsShiftf : Obligations.ShiftiIsNeverAssembledAsShiftf := by
  refine ⟨fun _ _ => mnemonic_and_opcode_of_assemble, fun text => ?_, fun digits n read => ?_,
    fun digits n read fits => ?_,
    fun w => ⟨assemble_disassemble (.shifti w), assemble_disassemble (.shiftf w)⟩, fun _ _ => rfl⟩
  · rw [assemble_shifti, assemble_shiftf, assembleOne_eq_map, assembleOne_eq_map]
    cases operandText 4095 (trimSpaces text) with
    | none => exact .inl ⟨rfl, rfl⟩
    | some x => exact .inr ⟨x, rfl, rfl⟩
  · have noSpace : ' ' ∉ 'r' :: digits :=
      List.not_mem_cons_of_ne_of_not_mem (by decide) (space_not_mem_of_number read)
    exact (assemble_shifti ('r' :: digits)).trans
      (assembleOne_of_operandText noSpace (operandText_of_name read 4095))
  · exact (assemble_shifti digits).trans
      (assembleOne_of_operandText (space_not_mem_of_literal read) (operandText_of_literal read fits))

/-- Settles O6: each word is the word of its instruction. -/
theorem writtenWordsDecodeToTheirInstructions : Obligations.WrittenWordsDecodeToTheirInstructions :=
  ⟨decode_encode (.gfadd 5 3), decode_encode (.gfinv 5), decode_encode (.sub 0x616),
    decode_encode (.shifti 0xC1D), decode_encode (.mixf 0xC1D), decode_encode (.keymix 0xDD3 0x53C),
    decode_encode (.dec 0x8EF 0x53C)⟩

/-- Settles O42, as the case of O41 in which the word is placed by `withFetchWord`. -/
theorem stepRunsTheWordPlacedNext : Obligations.StepRunsTheWordPlacedNext :=
  fun s nbits w i read => stepSamplesTheWordAndRunsItsInstruction.2
    (s.withFetchWord nbits w) 0 _ s.pending i rfl (decode_of_decodeTableWord read)

end Sys2Proof.Machine
end

section
/-! PROOFS. Field arithmetic (40_field_arithmetic.md). A field result is read back from the low bits of the
result word, so that every law of GFADD, GFMUL and GFINV is a law of XOR, `product` and `inverse`. The laws
of inverses rest on one fact, that a nonzero element times its inverse is 1, and on the associative law. -/

namespace Sys2Proof.Machine

/-! ## A field element in the result word (R68) -/

section ResultWord

variable (f g : FieldElement)

/-- R66, R68: a result word holds a field element as an operand field does. -/
theorem fieldResult_eq_fieldWord : fieldResult f = fieldWord f := by
  revert f; decide

@[simp] theorem extractLsb'_low_fieldResult : (fieldResult f).extractLsb' 0 3 = f :=
  fieldResult_eq_fieldWord f ▸ fieldOperand_fieldWord f

@[simp] theorem extractLsb'_high_fieldResult : (fieldResult f).extractLsb' 3 9 = 0 :=
  fieldResult_eq_fieldWord f ▸ reservedHigh_fieldWord f

theorem fieldResult_inj {f g : FieldElement} : fieldResult f = fieldResult g ↔ f = g := by
  refine ⟨fun same => ?_, congrArg fieldResult⟩
  rw [← extractLsb'_low_fieldResult f, same, extractLsb'_low_fieldResult]

theorem toNat_fieldResult_le : (fieldResult f).toNat ≤ 7 := by
  have kept : (fieldResult f).toNat = f.toNat := BitVec.toNat_setWidth_of_le (by decide)
  omega

end ResultWord

/-! ## The polynomial product and its remainder (R100, R101) -/

/-- R100: the bits of the carry-less product are the coefficients of the polynomial product. -/
theorem getLsbD_clmul (a b : FieldElement) :
    ∀ k < 5, (clmul a b).getLsbD k = Claims.coefficient a b k := by
  revert a b; decide

/-- R101: the quotient that `reduce` divides out. The term of degree 4 is subtracted first; as x³+x+1 has no
term x², that leaves the term of degree 3 as it was, so the two upper coefficients are the quotient. -/
def quotient (t : BitVec 5) : BitVec 2 := t.extractLsb' 3 2

/-- R101: a polynomial is its quotient times x³+x+1 plus what `reduce` leaves. -/
theorem getLsbD_eq_quotient_xor_reduce (t : BitVec 5) : ∀ k < 5, t.getLsbD k =
    (Claims.coefficient polynomial (quotient t) k ^^ (reduce polynomial t).getLsbD k) := by
  revert t; decide

/-! ## The laws of the field (R104, R109, R110) -/

section FieldLaws

variable (a b c : FieldElement)

theorem product_comm : product a b = product b a := by
  revert a b; decide

theorem product_assoc : product (product a b) c = product a (product b c) := by
  revert a b c; decide

theorem product_zero : product a 0 = 0 := by
  revert a; decide

theorem product_one : product a 1 = a := by
  revert a; decide

/-- R109: the distributive law, by the name the specification's equations use. -/
theorem product_xor : product a (b ^^^ c) = product a b ^^^ product a c := gmul_xor a b c

/-- R106: the printed table. -/
theorem product_eq_productValue : product a b = Claims.productValue a b := by
  revert a b; decide

/-- R120: the printed table. -/
theorem inverse_eq_sboxValue : inverse a = Claims.sboxValue a := by
  revert a; decide

theorem inverse_inverse : inverse (inverse a) = a := by
  simp only [inverse, ← romRead_eq_ginv, romRead_romRead]

theorem inverse_eq_self_iff : inverse a = a ↔ a = 0 ∨ a = 1 := by
  revert a; decide

/-- R104: the search for the inverse of a nonzero element succeeds. -/
theorem product_inverse {a : FieldElement} (nonzero : a ≠ 0) : product a (inverse a) = 1 := by
  revert a; decide

/-- R104, R110: a product of 1 leaves one choice for the second factor. -/
theorem product_eq_one_iff {a b : FieldElement} (nonzero : a ≠ 0) : product a b = 1 ↔ b = inverse a := by
  constructor
  · intro one
    calc b = product b (product a (inverse a)) := by rw [product_inverse nonzero, product_one]
      _ = product (product a b) (inverse a) := by rw [← product_assoc, product_comm b a]
      _ = inverse a := by rw [one, product_comm, product_one]
  · rintro rfl
    exact product_inverse nonzero

/-- R104: the inverse, as R107 defines it. -/
theorem inverse_eq_iff {a b : FieldElement} (nonzero : a ≠ 0) :
    inverse a = b ↔ b ≠ 0 ∧ product a b = 1 := by
  rw [product_eq_one_iff nonzero, eq_comm]
  refine ⟨fun same => ⟨?_, same⟩, And.right⟩
  rintro rfl
  have one := product_inverse nonzero
  rw [← same, product_zero] at one
  exact absurd one (by decide)

end FieldLaws

/-! ## The result words of the three commands -/

section ResultsOfCommands

variable (a b : FieldElement) (s : State)

/-- R105: GFADD reads no stored constant. -/
theorem lastResult_gfadd : lastResult (exec (.gfadd a b) s) = some (fieldResult (a ^^^ b)) :=
  lastResult_complete _ s

theorem lastResult_gfadd_self : lastResult (exec (.gfadd a a) s) = some 0 :=
  (lastResult_gfadd a a s).trans (congrArg (some ∘ fieldResult) BitVec.xor_self)

theorem lastResult_gfadd_zero : lastResult (exec (.gfadd a 0) s) = some (fieldResult a) :=
  (lastResult_gfadd a 0 s).trans (congrArg (some ∘ fieldResult) BitVec.xor_zero)

variable {s} (loaded : s.rom = romConstants)
include loaded

/-- Over the stored constants the result word of a command is the specification's. -/
theorem lastResult_exec (i : Instr) : lastResult (exec i s) = some (specResult i) := by
  rw [exec_eq_complete_specResult loaded, lastResult_complete]

theorem lastResult_gfmul : lastResult (exec (.gfmul a b) s) = some (fieldResult (product a b)) :=
  lastResult_exec loaded _

theorem lastResult_gfmul_zero : lastResult (exec (.gfmul a 0) s) = some 0 :=
  (lastResult_gfmul a 0 loaded).trans (congrArg (some ∘ fieldResult) (product_zero a))

theorem lastResult_gfmul_one : lastResult (exec (.gfmul a 1) s) = some (fieldResult a) :=
  (lastResult_gfmul a 1 loaded).trans (congrArg (some ∘ fieldResult) (product_one a))

theorem lastResult_gfmul_eq_one_iff :
    lastResult (exec (.gfmul a b) s) = some 1 ↔ product a b = 1 := by
  rw [lastResult_gfmul a b loaded, Option.some_inj]
  exact fieldResult_inj (g := 1)

theorem lastResult_gfinv : lastResult (exec (.gfinv a) s) = some (fieldResult (inverse a)) :=
  lastResult_exec loaded _

theorem lastResult_gfinv_eq_iff :
    lastResult (exec (.gfinv a) s) = some (fieldResult b) ↔ inverse a = b := by
  rw [lastResult_gfinv a loaded, Option.some_inj, fieldResult_inj]

end ResultsOfCommands

/-! ## The statements -/

/-- Settles O40, instruction by instruction in `exec_eq_complete_specResult`. -/
theorem execAgreesWithTheSpecsEquations : Obligations.ExecAgreesWithTheSpecsEquations :=
  fun i s loaded => (exec_eq_complete_specResult loaded i).trans (complete_eq_next s (specResult i))

/-- Settles O16: the remainder is what `reduce` leaves of the carry-less product, and the quotient is the
product's two upper coefficients. -/
theorem gfmulAnswersTheRemainderOfThePolynomialProduct :
    Obligations.GfmulAnswersTheRemainderOfThePolynomialProduct := by
  refine fun s a b loaded => ⟨product a b, quotient (clmul a b),
    execAgreesWithTheSpecsEquations (.gfmul a b) s loaded, fun k low => ?_⟩
  rw [← getLsbD_clmul a b k low]
  exact getLsbD_eq_quotient_xor_reduce (clmul a b) k low

/-- Settles O18, by the laws of `product`. -/
theorem gfmulIsCommutativeAssociativeDistributive :
    Obligations.GfmulIsCommutativeAssociativeDistributive := by
  intro s t a b c loaded loaded'
  refine ⟨?_, ?_, ?_, lastResult_gfmul_zero a loaded, lastResult_gfmul_one a loaded, ?_⟩ <;>
    simp only [lastResult_gfadd, lastResult_gfmul _ _ loaded, lastResult_gfmul _ _ loaded',
      Option.some_inj]
  · rw [product_comm]
  · rintro _ _ rfl rfl
    simp only [extractLsb'_low_fieldResult, product_assoc]
  · rintro _ _ _ rfl rfl rfl
    simp only [extractLsb'_low_fieldResult, product_xor]
  · rintro _ rfl
    exact toNat_fieldResult_le _

/-- Settles O19: the one inverse of `a` is `inverse a`. -/
theorem exactlyOneInverseOfEachNonzeroElement : Obligations.ExactlyOneInverseOfEachNonzeroElement := by
  refine fun s loaded => ⟨fun a nonzero => ?_, fun b => ?_, lastResult_gfinv 0 loaded⟩
  · simp only [lastResult_gfmul_eq_one_iff a _ loaded, ← inverse_eq_iff nonzero]
    exact existsUnique_eq'
  · rw [lastResult_gfmul 0 b loaded, product_comm, product_zero]
    rfl

/-- Settles O13: GFADD is in format FF2, and its result is read back from the result word. -/
theorem gfaddAnswersTheXorOfItsOperands : Obligations.GfaddAnswersTheXorOfItsOperands := by
  refine ⟨decode_commandWord 0x0, fun _ _ _ => rfl,
    fun fa fb s => ⟨lastResult_gfadd_self fa s, ?_, fun r result => ?_⟩, lastResult_gfadd 5 3⟩
  · exact (lastResult_gfadd_zero fa s).trans (congrArg some (fieldResult_eq_fieldWord fa))
  · cases (lastResult_gfadd fa fb s).symm.trans result
    exact extractLsb'_high_fieldResult _

/-- Settles O14: GFMUL is in format FF2, and over the stored constants its product is the table's. -/
theorem gfmulAnswersTheProductModuloThePolynomial :
    Obligations.GfmulAnswersTheProductModuloThePolynomial := by
  refine ⟨decode_commandWord 0x1, fun _ _ _ => rfl, fun fa fb s loaded => ?_,
    fun fa s loaded => ⟨lastResult_gfmul_zero fa loaded, ?_⟩,
    fun s loaded => ⟨lastResult_gfmul 7 7 loaded, lastResult_gfmul 2 4 loaded⟩⟩
  · rw [← product_eq_productValue]
    exact execAgreesWithTheSpecsEquations (.gfmul fa fb) s loaded
  · exact (lastResult_gfmul_one fa loaded).trans (congrArg some (fieldResult_eq_fieldWord fa))

/-- Settles O15: GFINV is in format FF1, and over the stored constants its result is `inverse`. -/
theorem gfinvAnswersTheInverseAndZeroForZero : Obligations.GfinvAnswersTheInverseAndZeroForZero := by
  refine ⟨decode_commandWord 0x2, fun fa s loaded => ?_, fun fa s loaded nonzero fb => ?_,
    fun fa s loaded => ⟨?_, fun r result => ?_⟩, fun s loaded =>
      ⟨lastResult_gfinv 5 loaded, lastResult_gfinv 3 loaded, lastResult_gfinv 4 loaded⟩⟩
  · rw [← inverse_eq_sboxValue]
    exact execAgreesWithTheSpecsEquations (.gfinv fa) s loaded
  · rw [lastResult_gfmul_eq_one_iff fa fb loaded, ← inverse_eq_iff nonzero]
    exact lastResult_gfinv_eq_iff fa fb loaded
  · rw [← inverse_eq_self_iff]
    exact lastResult_gfinv_eq_iff fa fa loaded
  · cases (lastResult_gfinv fa loaded).symm.trans result
    rw [extractLsb'_low_fieldResult]
    exact (lastResult_gfinv_eq_iff _ fa loaded).2 (inverse_inverse fa)

/-- Settles O17, by the laws of XOR. -/
theorem gfaddIsCommutativeAssociativeSelfInverse :
    Obligations.GfaddIsCommutativeAssociativeSelfInverse := by
  intro s t a b c
  refine ⟨?_, ?_, lastResult_gfadd_self a s, lastResult_gfadd_zero a s⟩ <;>
    simp only [lastResult_gfadd, Option.some_inj]
  · rw [BitVec.xor_comm]
  · rintro _ _ rfl rfl
    simp only [extractLsb'_low_fieldResult, BitVec.xor_assoc]

end Sys2Proof.Machine
end

section
/-! PROOFS. SBox (41_sbox.md). Over the stored constants SUB is `substituted`, whose cells are the inverses;
`inverse` is the printed table and an involution, and both facts carry over cell by cell. -/

namespace Sys2Proof.Machine

/-- R121: each cell is substituted independently. -/
theorem substituted_pack (a b c d : FieldElement) :
    substituted (pack a b c d) = pack (inverse a) (inverse b) (inverse c) (inverse d) := by
  simp only [substituted, cell_pack_00, cell_pack_01, cell_pack_10, cell_pack_11]

/-- R123, at the block. -/
theorem substituted_substituted (w : Block) : substituted (substituted w) = w := by
  obtain ⟨a, b, c, d, rfl⟩ := exists_pack w
  simp only [substituted_pack, inverse_inverse]

/-- R120, R121: the four cells through the printed table. -/
theorem substituted_eq_pack_sboxValue (w : Block) : substituted w =
    pack (Claims.sboxValue (cell w 0 0)) (Claims.sboxValue (cell w 0 1))
      (Claims.sboxValue (cell w 1 0)) (Claims.sboxValue (cell w 1 1)) := by
  simp only [substituted, inverse_eq_sboxValue]

/-- Settles O21: the table by its closed fact, SUB by the involution `substituted`. -/
theorem subTwiceAnswersTheBlock : Obligations.SubTwiceAnswersTheBlock := by
  refine fun s t loaded loaded' => ⟨fun a => ?_, fun w r result => ?_⟩
  · rw [loaded]
    exact romRead_romRead a
  · cases (lastResult_exec loaded (.sub w)).symm.trans result
    exact (lastResult_exec loaded' _).trans (congrArg some (substituted_substituted w))

/-- Settles O20: SUB is in format FB1, and over the stored constants it is the table at every cell. -/
theorem subAnswersEveryCellThroughTheTable : Obligations.SubAnswersEveryCellThroughTheTable := by
  refine ⟨decode_commandWord 0x3, fun wa s loaded => ?_, fun s loaded =>
    ⟨lastResult_exec loaded (.sub 0x000), lastResult_exec loaded (.sub 0x249),
      lastResult_exec loaded (.sub 0xFFF), lastResult_exec loaded (.sub 0x616)⟩⟩
  calc exec (.sub wa) s = .next { s with responses := s.responses ++ [.done (substituted wa)] } :=
        execAgreesWithTheSpecsEquations (.sub wa) s loaded
    _ = _ := by rw [substituted_eq_pack_sboxValue]; rfl

end Sys2Proof.Machine
end

section
/-! PROOFS. RowShift (42_rowshift.md). In every state SHIFTF and SHIFTI complete with `shifted`: they read no
stored constant. On a word packed from its cells `shifted` swaps the last two. -/

namespace Sys2Proof.Machine

/-- R130: row 0 unchanged, the cells of row 1 swapped. -/
theorem shifted_pack (a b c d : FieldElement) : shifted (pack a b c d) = pack a b d c := by
  rw [← shiftForward_eq_shifted, shiftForward_pack]

/-- R132: swapping the two cells of row 1 again restores the row. -/
theorem shifted_shifted (w : Block) : shifted (shifted w) = w := by
  obtain ⟨a, b, c, d, rfl⟩ := exists_pack w
  rw [shifted_pack, shifted_pack]

/-- R130: a block whose row 1 holds the same cell twice is a fixed point. -/
theorem shifted_eq_self {w : Block} (sameCells : cell w 1 0 = cell w 1 1) : shifted w = w := by
  obtain ⟨a, b, c, d, rfl⟩ := exists_pack w
  rw [cell_pack_10, cell_pack_11] at sameCells
  rw [shifted_pack, sameCells]

/-! ## What the two commands answer -/

section ResultsOfCommands

variable (w : Block) (s : State)

theorem exec_shiftf : exec (.shiftf w) s = complete (shifted w) s :=
  congrArg (complete · s) (shiftForward_eq_shifted w)

/-- R131: the same outcome under the other opcode. -/
theorem exec_shifti : exec (.shifti w) s = complete (shifted w) s :=
  congrArg (complete · s) (shiftInverse_eq_shifted w)

theorem lastResult_shiftf : lastResult (exec (.shiftf w) s) = some (shifted w) := by
  rw [exec_shiftf, lastResult_complete]

theorem lastResult_shifti : lastResult (exec (.shifti w) s) = some (shifted w) := by
  rw [exec_shifti, lastResult_complete]

end ResultsOfCommands

/-! ## The statements -/

/-- Settles O24: either command shifts the result once more. -/
theorem rowShiftTwiceAnswersTheBlock : Obligations.RowShiftTwiceAnswersTheBlock := by
  intro s t w r result
  cases (lastResult_shiftf w s).symm.trans result
  rw [lastResult_shiftf, lastResult_shifti, shifted_shifted]
  exact ⟨rfl, rfl⟩

/-- Settles O22: SHIFTF is in format FB1, and its result is `shifted`. -/
theorem shiftfAnswersTheBottomRowSwapped : Obligations.ShiftfAnswersTheBottomRowSwapped :=
  ⟨decode_commandWord 0x4, exec_shiftf,
    fun wa s sameCells => (lastResult_shiftf wa s).trans (congrArg some (shifted_eq_self sameCells)),
    lastResult_shiftf 0xC2B⟩

/-- Settles O23: SHIFTI is in format FB1 under its own opcode, and its result is `shifted` as well. -/
theorem shiftiAnswersWhatShiftfAnswers : Obligations.ShiftiAnswersWhatShiftfAnswers :=
  ⟨decode_commandWord 0x5, exec_shifti,
    fun wa s => (exec_shifti wa s).trans (exec_shiftf wa s).symm, lastResult_shifti 0xC1D⟩

end Sys2Proof.Machine
end

section
/-! PROOFS. ColumnMix (43_columnmix.md). Over the stored constants MIXF is `mixed` and MIXI is `unmixed`. On a
word packed from its cells each cell of the result is a `rowSum` of the two cells of its row, and `rowSum` is
linear; the inverse pair and the fixed point are facts about one row. -/

namespace Sys2Proof.Machine

open Claims (rowSum)

/-! ## One row (R141) -/

section Row

variable (u v u' v' : FieldElement)

/-- R141: the pair transform over the polynomial, by the printed product table. -/
theorem mixPair_eq_rowSum (x : Mat2) :
    mixPair polynomial x u v = (rowSum x.m00 u x.m01 v, rowSum x.m10 u x.m11 v) := by
  simp only [mixPair, gadd, rowSum, ← product_eq_productValue, product]

theorem rowSum_xor (m n : FieldElement) :
    rowSum m (u ^^^ u') n (v ^^^ v') = rowSum m u n v ^^^ rowSum m u' n v' := by
  simp only [rowSum, ← product_eq_productValue, product_xor]
  ac_rfl

/-- 2, the entry of `M_F` off its diagonal, is no zero divisor. -/
theorem product_two_eq_zero_iff : product 2 v = 0 ↔ v = 0 := by
  revert v; decide

/-- R142: `M_F` has ones on its diagonal, so that a cell is kept exactly when what it is summed with is 0. -/
theorem xor_product_two_eq_self_iff : u ^^^ product 2 v = u ↔ v = 0 :=
  calc u ^^^ product 2 v = u
    _ ↔ u ^^^ product 2 v = u ^^^ 0#3 := by rw [BitVec.xor_zero]
    _ ↔ product 2 v = 0 := BitVec.xor_right_inj u
    _ ↔ v = 0 := product_two_eq_zero_iff v

end Row

/-! ## The two transforms of a block -/

section Blocks

variable (a b c d : FieldElement) (w w' : Block)

/-- R40: a word determines its cells. -/
theorem pack_inj {a' b' c' d' : FieldElement} :
    pack a b c d = pack a' b' c' d' ↔ (a = a' ∧ b = b') ∧ c = c' ∧ d = d' := by
  refine ⟨fun same => ?_, ?_⟩
  · have sameCell (i j : Fin 2) := congrArg (cell · i j) same
    exact ⟨⟨by simpa using sameCell 0 0, by simpa using sameCell 0 1⟩,
      by simpa using sameCell 1 0, by simpa using sameCell 1 1⟩
  · rintro ⟨⟨rfl, rfl⟩, rfl, rfl⟩
    rfl

/-- R142, by the printed product table. -/
theorem mixed_pack : mixed (pack a b c d) =
    pack (rowSum 1 a 2 b) (rowSum 2 a 1 b) (rowSum 1 c 2 d) (rowSum 2 c 1 d) := by
  rw [← mixForward_romConstants, mixForward_pack]
  simp only [romConstants, forwardMatrix, mixPair_eq_rowSum]

/-- R143, by the printed product table. -/
theorem unmixed_pack : unmixed (pack a b c d) =
    pack (rowSum 2 a 4 b) (rowSum 4 a 2 b) (rowSum 2 c 4 d) (rowSum 4 c 2 d) := by
  rw [← mixInverse_romConstants, mixInverse_pack]
  simp only [romConstants, inverseMatrix, mixPair_eq_rowSum]

theorem mixed_xor : mixed (w ^^^ w') = mixed w ^^^ mixed w' := by
  obtain ⟨a, b, c, d, rfl⟩ := exists_pack w
  obtain ⟨a', b', c', d', rfl⟩ := exists_pack w'
  simp only [pack_xor_pack, mixed_pack, rowSum_xor]

theorem unmixed_xor : unmixed (w ^^^ w') = unmixed w ^^^ unmixed w' := by
  obtain ⟨a, b, c, d, rfl⟩ := exists_pack w
  obtain ⟨a', b', c', d', rfl⟩ := exists_pack w'
  simp only [pack_xor_pack, unmixed_pack, rowSum_xor]

/-- R144, at the block. -/
theorem unmixed_mixed : unmixed (mixed w) = w := by
  obtain ⟨a, b, c, d, rfl⟩ := exists_pack w
  rw [← mixForward_romConstants, ← mixInverse_romConstants, mixForward_pack, mixInverse_pack]
  simp only [romConstants, mixPair_inverse_forward]

/-- R144, at the block, the other order. -/
theorem mixed_unmixed : mixed (unmixed w) = w := by
  obtain ⟨a, b, c, d, rfl⟩ := exists_pack w
  rw [← mixForward_romConstants, ← mixInverse_romConstants, mixInverse_pack, mixForward_pack]
  simp only [romConstants, mixPair_forward_inverse]

/-- R142: 0 is the only fixed point, because each cell of a row is kept exactly when the other one is 0. -/
theorem mixed_eq_self_iff : mixed w = w ↔ w = 0 := by
  obtain ⟨a, b, c, d, rfl⟩ := exists_pack w
  calc mixed (pack a b c d) = pack a b c d ↔ (b = 0 ∧ a = 0) ∧ d = 0 ∧ c = 0 := by
        simp only [mixed, cell_pack_00, cell_pack_01, cell_pack_10, cell_pack_11, pack_inj,
          BitVec.xor_comm (product 2 a), BitVec.xor_comm (product 2 c), xor_product_two_eq_self_iff]
    _ ↔ pack a b c d = pack 0 0 0 0 := by
        rw [pack_inj, and_comm (a := b = 0), and_comm (a := d = 0)]

end Blocks

/-! ## From laws of the words to laws of the commands -/

section ResultsOfCommands

variable {s t : State} {w w1 w2 r r1 r2 : Block} (loaded : s.rom = romConstants)
include loaded

/-- A command that undoes another one on the specification's words undoes it in any two states. -/
theorem lastResult_of_undone {make undo : Block → Instr} (loaded' : t.rom = romConstants)
    (undone : ∀ w, specResult (undo (specResult (make w))) = w)
    (result : lastResult (exec (make w) s) = some r) : lastResult (exec (undo r) t) = some w := by
  cases (lastResult_exec loaded (make w)).symm.trans result
  rw [lastResult_exec loaded', undone]

/-- A command that is linear on the specification's words is linear on the words it answers. -/
theorem lastResult_xor_of_linear {make : Block → Instr}
    (linear : ∀ w w', specResult (make (w ^^^ w')) = specResult (make w) ^^^ specResult (make w'))
    (result1 : lastResult (exec (make w1) s) = some r1)
    (result2 : lastResult (exec (make w2) s) = some r2) :
    lastResult (exec (make (w1 ^^^ w2)) s) = some (r1 ^^^ r2) := by
  cases (lastResult_exec loaded (make w1)).symm.trans result1
  cases (lastResult_exec loaded (make w2)).symm.trans result2
  rw [lastResult_exec loaded, linear]

end ResultsOfCommands

/-! ## The statements -/

/-- Settles O27: over the stored constants the two commands are `mixed` and `unmixed`. -/
theorem mixesUndoEachOther : Obligations.MixesUndoEachOther :=
  fun _ _ _ _ loaded loaded' =>
    ⟨lastResult_of_undone (make := .mixf) (undo := .mixi) loaded loaded' unmixed_mixed,
      lastResult_of_undone (make := .mixi) (undo := .mixf) loaded loaded' mixed_unmixed⟩

/-- Settles O25: MIXF is in format FB1, and over the stored constants it is `mixed`. -/
theorem mixfAnswersTheForwardMatrixTimesEachRow :
    Obligations.MixfAnswersTheForwardMatrixTimesEachRow := by
  refine ⟨decode_commandWord 0x6, fun c00 c01 c10 c11 s loaded => ?_,
    fun s w1 w2 r1 r2 loaded => lastResult_xor_of_linear (make := .mixf) loaded mixed_xor,
    fun s w loaded => ?_, fun s loaded => ⟨lastResult_exec loaded (.mixf 0xFFF),
      lastResult_exec loaded (.mixf 0x924), lastResult_exec loaded (.mixf 0xC1D)⟩⟩
  · exact (exec_eq_complete_specResult loaded (.mixf _)).trans
      (congrArg (complete · s) (mixed_pack c00 c01 c10 c11))
  · rw [lastResult_exec loaded, Option.some_inj]
    exact mixed_eq_self_iff w

/-- Settles O26: MIXI is in format FB1, and over the stored constants it is `unmixed`. -/
theorem mixiAnswersTheInverseMatrixTimesEachRow :
    Obligations.MixiAnswersTheInverseMatrixTimesEachRow := by
  refine ⟨decode_commandWord 0x7, fun c00 c01 c10 c11 s loaded => ?_,
    fun s w1 w2 r1 r2 loaded => lastResult_xor_of_linear (make := .mixi) loaded unmixed_xor,
    fun s loaded => ⟨lastResult_exec loaded (.mixi 0x000), lastResult_exec loaded (.mixi 0xFFF),
      lastResult_exec loaded (.mixi 0xDD3)⟩⟩
  exact (exec_eq_complete_specResult loaded (.mixi _)).trans
    (congrArg (complete · s) (unmixed_pack c00 c01 c10 c11))

end Sys2Proof.Machine
end

section
/-! PROOFS. KeyMix (44_keymix.md). KEYMIX is one XOR of the block and the key in every state, since it reads no
stored constant; its corner cases and the self-inverse law are those of XOR. -/

namespace Sys2Proof.Machine

/-- R150: the cells of a sum are the sums of the cells. -/
theorem cell_xor (w k : Block) (r c : Fin 2) : cell (w ^^^ k) r c = cell w r c ^^^ cell k r c :=
  BitVec.extractLsb'_xor

/-! ## What the command answers -/

section ResultsOfCommands

variable (w : Block) (k : Key) (s : State)

/-- R150: the loop over the cells is one XOR of the words. -/
theorem exec_keymix : exec (.keymix w k) s = complete (w ^^^ k) s :=
  congrArg (complete · s) (keyMix_eq_xor w k)

theorem lastResult_keymix : lastResult (exec (.keymix w k) s) = some (w ^^^ k) := by
  rw [exec_keymix, lastResult_complete]

end ResultsOfCommands

/-! ## The statements -/

/-- Settles O29: the two additions of the key cancel. -/
theorem keymixTwiceAnswersTheBlock : Obligations.KeymixTwiceAnswersTheBlock := by
  intro s t w r k result
  cases (lastResult_keymix w k s).symm.trans result
  calc lastResult (exec (.keymix (w ^^^ k) k) t) = some (w ^^^ k ^^^ k) := lastResult_keymix _ k t
    _ = some w := by rw [BitVec.xor_assoc, BitVec.xor_self, BitVec.xor_zero]

/-- Settles O28: KEYMIX is in format FB2, and its corner cases are XOR with zero, with itself and with ones. -/
theorem keymixAnswersTheXorOfBlockAndKey : Obligations.KeymixAnswersTheXorOfBlockAndKey :=
  ⟨decode_commandWord 0x8, exec_keymix, cell_xor,
    fun w s => ⟨(lastResult_keymix w 0 s).trans (congrArg some BitVec.xor_zero),
      (lastResult_keymix w w s).trans (congrArg some BitVec.xor_self),
      (lastResult_keymix w _ s).trans (congrArg some BitVec.xor_allOnes)⟩,
    lastResult_keymix 0xDD3 0x53C⟩

end Sys2Proof.Machine
end

section
/-! PROOFS. Cipher (45_cipher.md). Over the stored constants ENC and DEC are `specResult`, whose stages undo
each other one by one. Over any constants the key enters once: ENC adds it to what the stages before KEYMIX
leave, and DEC sees its sum with the ciphertext only. -/

namespace Sys2Proof.Machine

/-! ## One key, added once (R150, R163) -/

section OneKey

variable (rom : Rom) (w k k' : Block)

/-- R163: another key changes the ciphertext by the XOR of the keys. -/
theorem encryptWord_xor_keys : encryptWord rom w k ^^^ k ^^^ k' = encryptWord rom w k' := by
  simp only [encryptWord, keyMix_eq_xor, xor_cancel_right]

/-- R163: ciphertexts of the same XOR with their keys are decrypted alike. -/
theorem decryptWord_xor_keys : decryptWord rom (w ^^^ k ^^^ k') k' = decryptWord rom w k := by
  simp only [decryptWord, keyMix_eq_xor, xor_cancel_right]

end OneKey

/-! ## The two commands over the stored constants -/

section Words

variable (w : Block) (k : Key)

/-- R162: each stage of DEC meets what its own inverse stage left. -/
theorem specResult_dec_enc : specResult (.dec (specResult (.enc w k)) k) = w := by
  simp only [specResult, xor_cancel_right, unmixed_mixed, shifted_shifted, substituted_substituted]

/-- R162, the other order. -/
theorem specResult_enc_dec : specResult (.enc (specResult (.dec w k)) k) = w := by
  simp only [specResult, substituted_substituted, shifted_shifted, mixed_unmixed, xor_cancel_right]

/-- R160: the stages before KEYMIX keep the zero block. -/
theorem specResult_enc_zero_block : specResult (.enc 0#12 k) = k := by
  have kept : mixed (shifted (substituted 0#12)) = 0#12 := by decide
  rw [specResult, kept, BitVec.zero_xor]

/-- R161: the stages after KEYMIX keep the zero block. -/
theorem specResult_dec_self : specResult (.dec k k) = 0#12 := by
  have kept : substituted (shifted (unmixed 0#12)) = 0#12 := by decide
  rw [specResult, BitVec.xor_self, kept]

end Words

/-! ## The fixed points under the zero key (R160) -/

/-- R160: the top row, whose cells SHIFTF keeps. -/
theorem topRow_fixed_iff (a b : FieldElement) :
    inverse a ^^^ product 2 (inverse b) = a ∧ product 2 (inverse a) ^^^ inverse b = b ↔
      a = 0 ∧ b = 0 ∨ a = 7 ∧ b = 7 := by
  revert a b; decide

/-- R160: the bottom row, whose cells SHIFTF swaps. -/
theorem bottomRow_fixed_iff (c d : FieldElement) :
    inverse d ^^^ product 2 (inverse c) = c ∧ product 2 (inverse d) ^^^ inverse c = d ↔
      c = 0 ∧ d = 0 ∨ c = 7 ∧ d = 7 := by
  revert c d; decide

/-- R160: each row is kept exactly when its two cells are 0 or its two cells are 7. -/
theorem specResult_enc_zero_key_eq_self_iff (w : Block) : specResult (.enc w 0#12) = w ↔
    w = 0x000 ∨ w = 0x03F ∨ w = 0xFC0 ∨ w = 0xFFF := by
  obtain ⟨a, b, c, d, rfl⟩ := exists_pack w
  calc specResult (.enc (pack a b c d) 0#12) = pack a b c d
    _ ↔ (a = 0 ∧ b = 0 ∨ a = 7 ∧ b = 7) ∧ (c = 0 ∧ d = 0 ∨ c = 7 ∧ d = 7) := by
        simp only [specResult, BitVec.xor_zero, substituted_pack, shifted_pack, mixed,
          cell_pack_00, cell_pack_01, cell_pack_10, cell_pack_11, pack_inj]
        exact and_congr (topRow_fixed_iff a b) (bottomRow_fixed_iff c d)
    _ ↔ pack a b c d = pack 0 0 0 0 ∨ pack a b c d = pack 0 0 7 7 ∨
          pack a b c d = pack 7 7 0 0 ∨ pack a b c d = pack 7 7 7 7 := by
        simp only [pack_inj]
        rw [or_and_right, and_or_left, and_or_left, or_assoc]

/-! ## The range checks of the entries (R164, R165) -/

/-- R205: the key is checked first, then the block, and only then `operation` is run. -/
theorem answers_of_rangeChecks {block key : Nat} {s : State} {served operation : Result}
    (checks : served = if key > 4095 then raise .invalidKeyLength s
      else if block > 4095 then raise .invalidBlockValue s else operation) :
    (key > 4095 → served = .next { s with responses := s.responses ++ [.error .invalidKeyLength] }) ∧
    (key ≤ 4095 → block > 4095 →
      served = .next { s with responses := s.responses ++ [.error .invalidBlockValue] }) ∧
    (key ≤ 4095 → block ≤ 4095 → served = operation) := by
  subst checks
  refine ⟨fun keyWide => if_pos keyWide, fun keyFits blockWide => ?_, fun keyFits blockFits => ?_⟩
  · rw [if_neg keyFits.not_gt, if_pos blockWide, raise_eq_next]
  · rw [if_neg keyFits.not_gt, if_neg blockFits.not_gt]

/-! ## The statements -/

/-- Settles O30: ENC is in format FB2, and over the stored constants it is the composition `specResult`. -/
theorem encAnswersTheFourStagesInOrder : Obligations.EncAnswersTheFourStagesInOrder := by
  refine ⟨decode_commandWord 0x9, fun wa kb s loaded => ⟨_, _, _, _, lastResult_exec loaded (.sub wa),
      lastResult_exec loaded (.shiftf _), lastResult_exec loaded (.mixf _),
      lastResult_exec loaded (.keymix _ kb), execAgreesWithTheSpecsEquations (.enc wa kb) s loaded⟩,
    fun k s loaded => ?_, fun w s loaded => ?_, fun s loaded => ⟨lastResult_exec loaded (.enc 0xFFF 0xFFF),
      lastResult_exec loaded (.enc 0x616 0x53C), lastResult_exec loaded (.enc 0x8EF 0x53C)⟩⟩
  · exact (lastResult_exec loaded _).trans (congrArg some (specResult_enc_zero_block k))
  · rw [lastResult_exec loaded, Option.some_inj]
    exact specResult_enc_zero_key_eq_self_iff w

/-- Settles O31: DEC is in format FB2, and over the stored constants it is the composition `specResult`. -/
theorem decAnswersTheFourStagesReversed : Obligations.DecAnswersTheFourStagesReversed := by
  refine ⟨decode_commandWord 0xA, fun wa kb s loaded => ⟨_, _, _, _,
      lastResult_exec loaded (.keymix wa kb), lastResult_exec loaded (.mixi _),
      lastResult_exec loaded (.shifti _), lastResult_exec loaded (.sub _),
      execAgreesWithTheSpecsEquations (.dec wa kb) s loaded⟩,
    fun k s loaded => ?_, fun s loaded => ⟨lastResult_exec loaded (.dec 0x000 0x000),
      lastResult_exec loaded (.dec 0x001 0x000), lastResult_exec loaded (.enc 0x001 0x000),
      lastResult_exec loaded (.dec 0x8EF 0x53C)⟩⟩
  exact (lastResult_exec loaded _).trans (congrArg some (specResult_dec_self k))

/-- Settles O32: under one key the two commands undo each other on the specification's words. -/
theorem decryptionAndEncryptionUndoEachOther : Obligations.DecryptionAndEncryptionUndoEachOther :=
  fun _ _ _ _ k loaded loaded' =>
    ⟨lastResult_of_undone (make := (.enc · k)) (undo := (.dec · k)) loaded loaded'
        (specResult_dec_enc · k),
      lastResult_of_undone (make := (.dec · k)) (undo := (.enc · k)) loaded loaded'
        (specResult_enc_dec · k)⟩

/-- Settles O33: the two commands complete with `encryptWord` and `decryptWord`, functions of the constants
and the operands. -/
theorem theKeyEntersOnceAndNothingIsChained : Obligations.TheKeyEntersOnceAndNothingIsChained := by
  refine fun s t w c k k' same => ⟨fun r result => ?_, ?_⟩
  · cases (lastResult_complete (encryptWord s.rom w k) s).symm.trans result
    rw [encryptWord_xor_keys, same]
    exact lastResult_complete (encryptWord t.rom w k') t
  · calc lastResult (exec (.dec c k) s) = some (decryptWord s.rom c k) := lastResult_complete _ s
      _ = some (decryptWord t.rom (c ^^^ k ^^^ k') k') := by rw [decryptWord_xor_keys, same]
      _ = lastResult (exec (.dec (c ^^^ k ^^^ k') k') t) := (lastResult_complete _ t).symm

/-- Settles O34: the entry is the range checks before ENC. -/
theorem encryptBlockChecksTheKeyThenTheBlockThenEncrypts :
    Obligations.EncryptBlockChecksTheKeyThenTheBlockThenEncrypts :=
  fun _ _ _ => answers_of_rangeChecks rfl

/-- Settles O35: the entry is the range checks before DEC. -/
theorem decryptBlockChecksTheKeyThenTheBlockThenDecrypts :
    Obligations.DecryptBlockChecksTheKeyThenTheBlockThenDecrypts :=
  fun _ _ _ => answers_of_rangeChecks rfl

end Sys2Proof.Machine
end

section
/-! PROOFS. Exceptions (60_exceptions.md). What is answered is said once for each source of errors: an operation
always completes, a command word is refused exactly where its decoding is, and an entry exactly where one of its
range checks fails. -/

namespace Sys2Proof.Machine

/-! ## Status values (R200) -/

/-- R200: the codes 5 to 7 are never produced. -/
theorem toNat_statusCode_le (status : Status) : (statusCode status).toNat ≤ 4 := by
  cases status with
  | ok => decide
  | error e => cases e <;> decide

/-- R200: only OK has the code 0. -/
theorem statusCode_error_ne_zero (e : ErrorKind) : statusCode (.error e) ≠ 0 := by
  cases e <;> decide

/-! ## Operations raise nothing (R207) -/

/-- R207: every operation completes with a result word, in every state. -/
theorem exists_exec_eq_complete (i : Instr) (s : State) : ∃ w, exec i s = complete w s := by
  cases i <;> exact ⟨_, rfl⟩

/-! ## The errors of the command port (R201, R202, R205) -/

section CommandPort

variable (cmd : Command)

/-- R201, R205: the opcode is checked first, whatever else is wrong. -/
theorem decode_eq_reservedOpcode_iff :
    decode cmd = .error .reservedOpcode ↔ 0xB ≤ (opField cmd).toNat := by
  obtain ⟨reserved, refused⟩ | ⟨defined, ⟨-, i, read, -⟩ | ⟨-, refused⟩⟩ := decode_cases cmd
  · simp [refused, reserved]
  · simp [read, defined]
  · simp [refused, defined]

/-- R202: below the reserved opcodes, a word outside the table has a reserved operand bit set. -/
theorem decode_eq_reservedOperandBits_iff : decode cmd = .error .reservedOperandBits ↔
    (opField cmd).toNat < 0xB ∧ ∀ row ∈ opcodeTable, cmd &&& row.mask ≠ row.pattern := by
  constructor
  · intro refused
    obtain ⟨-, reserved⟩ | ⟨defined, -⟩ := decode_cases cmd
    · simp [reserved] at refused
    · refine ⟨defined, fun row mem held => ?_⟩
      obtain ⟨i, read⟩ := (exists_decode_iff cmd).2 ((exists_row_iff cmd).1 ⟨row, mem, held⟩)
      simp [read] at refused
  · rintro ⟨defined, outside⟩
    rw [decode_of_no_row outside, if_neg defined.not_ge]

/-- R203, R204: a range error does not arise in decoding. -/
theorem eq_reserved_of_decode_error {e : ErrorKind} (refused : decode cmd = .error e) :
    e = .reservedOpcode ∨ e = .reservedOperandBits := by
  obtain ⟨-, read⟩ | ⟨-, ⟨-, i, read, -⟩ | ⟨-, read⟩⟩ := decode_cases cmd
  · exact .inl (Except.error.inj (refused.symm.trans read))
  · cases refused.symm.trans read
  · exact .inr (Except.error.inj (refused.symm.trans read))

/-- R203, R207: the one response to a command word is an error exactly where decoding is, and the same one. -/
theorem exists_response_of_command (s : State) : ∃ r : Response,
    serveTransaction (.command cmd) s = .next { s with responses := s.responses ++ [r] } ∧
    ∀ e, r = .error e ↔ decode cmd = .error e := by
  cases decoded : decode cmd with
  | error e =>
    exact ⟨.error e, serveTransaction_of_decode_error decoded s, fun e' => by simp⟩
  | ok i =>
    obtain ⟨w, completes⟩ := exists_exec_eq_complete i s
    exact ⟨.done w, by simp only [serveTransaction, decoded, completes, complete_eq_next],
      fun e => by simp⟩

end CommandPort

/-! ## The errors of the entries (R204, R205) -/

/-- R204, R205: an entry whose operation completes answers one response, an error exactly where a range check
fails, the key's before the block's. -/
theorem exists_response_of_rangeChecks {block key : Nat} {w : Block} {s : State} {served : Result}
    (checks : served = if key > 4095 then raise .invalidKeyLength s
      else if block > 4095 then raise .invalidBlockValue s else complete w s) :
    ∃ r : Response,
      served = .next { s with responses := s.responses ++ [r] } ∧
      (r = .error .invalidKeyLength ↔ key > 4095) ∧
      (r = .error .invalidBlockValue ↔ key ≤ 4095 ∧ block > 4095) ∧
      r ≠ .error .reservedOpcode ∧ r ≠ .error .reservedOperandBits := by
  obtain ⟨keyRefused, blockRefused, admitted⟩ := answers_of_rangeChecks checks
  obtain keyWide | keyFits := Nat.lt_or_ge 4095 key
  · exact ⟨.error .invalidKeyLength, keyRefused keyWide, by simp [keyWide]⟩
  · obtain blockWide | blockFits := Nat.lt_or_ge 4095 block
    · exact ⟨.error .invalidBlockValue, blockRefused keyFits blockWide, by simp [keyFits, blockWide]⟩
    · exact ⟨.done w, admitted keyFits blockFits, by simp [keyFits, blockFits]⟩

/-! ## The record of errors (R206) -/

/-- R206: one more transaction answered with an error is one more entry at the end of the record. -/
theorem errorRecord_snoc_error (rom : Rom) (pending : List Event) (accepted : List Accepted)
    (responses : List Response) (a : Accepted) (e : ErrorKind)
    (answered : accepted.length = responses.length) :
    State.errorRecord ⟨rom, pending, accepted ++ [a], responses ++ [.error e]⟩ =
      State.errorRecord ⟨rom, pending, accepted, responses⟩ ++ [(a, .error e)] := by
  rw [State.errorRecord, history_snoc (answered := answered), List.filter_append]
  rfl

/-! ## The statements -/

/-- Settles O37: the decoder's errors are the command port's, and the range checks' are the entries'. -/
theorem errorsAreRaisedInTheOrderOfPriority : Obligations.ErrorsAreRaisedInTheOrderOfPriority := by
  refine ⟨fun cmd s => ?_, fun block key s t entry => ?_⟩
  · obtain ⟨r, served, sameError⟩ := exists_response_of_command cmd s
    have reserved {e : ErrorKind} (raised : r = .error e) :
        e = .reservedOpcode ∨ e = .reservedOperandBits :=
      eq_reserved_of_decode_error cmd ((sameError e).1 raised)
    exact ⟨r, served, (sameError _).trans (decode_eq_reservedOpcode_iff cmd),
      (sameError _).trans (decode_eq_reservedOperandBits_iff cmd),
      fun raised => by simpa using reserved raised, fun raised => by simpa using reserved raised⟩
  · obtain rfl | rfl : t = .encryptBlock block key ∨ t = .decryptBlock block key := by
      simpa using entry
    · exact exists_response_of_rangeChecks rfl
    · exact exists_response_of_rangeChecks rfl

/-- Settles O38: the response to a transaction is a function of it and of the constants, which the failed one
leaves as they are. -/
theorem anErrorLeavesTheNextTransactionAsItWas :
    Obligations.AnErrorLeavesTheNextTransactionAsItWas := by
  intro s t a b rest e answered head next failed
  obtain ⟨r₁, answersFirst⟩ := serveTransaction_next a.transaction s.rom
  obtain ⟨r₂, answersSecond⟩ := serveTransaction_next b.transaction s.rom
  cases next.symm.trans ((step_present head).trans (answersFirst _ rfl))
  obtain rfl : r₁ = .error e := by simpa using failed
  refine ⟨rfl, errorRecord_snoc_error (answered := answered) .., r₂, _, _,
    (step_present rfl).trans (answersSecond _ rfl), (step_present rfl).trans (answersSecond _ rfl), ?_, rfl⟩
  simp

/-- Settles O36, by the table of codes. -/
theorem statusValuesAreTheTables : Obligations.StatusValuesAreTheTables := by
  refine ⟨fun _ => rfl, rfl, rfl, rfl, rfl, fun x => toNat_statusCode_le x.status, fun x => ?_⟩
  cases x with
  | done r => exact iff_of_true rfl rfl
  | error e => exact iff_of_false (by simp [Response.result?]) (statusCode_error_ne_zero e)

/-- Settles O39: every operation completes, and over the stored constants GFINV answers the inverse. -/
theorem everyDecodedOperationAnswersOkAndChangesNothingElse :
    Obligations.EveryDecodedOperationAnswersOkAndChangesNothingElse :=
  ⟨exists_exec_eq_complete, fun _ => lastResult_gfinv 0⟩

end Sys2Proof.Machine
end

section
/-! PROOFS. Reset, runs and a host's duties (70_reset_and_hazards.md). What a run of any events can do is said
once, as an induction over the events: it answers each request by its own fields, or it stops where some host's
calls do. That dutiful hosts get no error rests on what each host receives, and needs no induction over the run. -/

namespace Sys2Proof.Machine

variable {s : State} {rest : List Event}

/-! ## The state a run leaves (R234) -/

/-- The state after these transactions have been sampled and each has got the response of its own fields. -/
def State.served (sampled : List Accepted) (rest : List Event) (s : State) : State :=
  { s with
    pending := rest
    accepted := s.accepted ++ sampled
    responses := s.responses ++ sampled.map (fun a => specResponse a.transaction) }

theorem served_nil (waits : s.pending = rest) : s.served [] rest = s := by
  subst waits
  simp [State.served]

/-- Serving one transaction and then others is serving them all in a row. -/
@[simp] theorem accept_respond_served {waiting : List Event} (host : Nat) (a : Transaction)
    (sampled : List Accepted) :
    ((State.accept host a { s with pending := waiting }).respond (specResponse a)).served sampled rest =
      s.served (⟨host, a⟩ :: sampled) rest := by
  simp [State.served]

/-! ## What a run can do (R50, R74, R231, R234) -/

/-- A run whose first step stops is stopped. -/
theorem run_succ_of_step_fault {f : Fault} (stops : step s = .fault f) (k : Nat) :
    Host.Core.run core (k + 1) s = .fault f := by
  have coreStops : core.step s = .fault f := stops
  simp only [Host.Core.run, coreStops]

/-- R234: transactions presented as they stand are all answered, in the order issued. -/
theorem run_map_present (issued : List Accepted) (loaded : s.rom = romConstants)
    (waits : s.pending = issued.map Accepted.present ++ rest) :
    Host.Core.run core issued.length s = .next (s.served issued rest) := by
  induction issued generalizing s with
  | nil => exact congrArg Host.Outcome.next (served_nil waits).symm
  | cons x issued ih =>
    have next := step_request_specResponse loaded waits (resolveCall_ofTransaction _ _)
    have later := (run_succ_of_step next _).trans (ih loaded rfl)
    rwa [accept_respond_served] at later

/-- R50, R74, R231: a run of events either answers every request and leaves each host what
`hostResponses` gives it for its own calls, or it stops with the fault of some host's calls. -/
theorem run_completes_or_faults (events : List Event) (loaded : s.rom = romConstants)
    (answered : s.accepted.length = s.responses.length) (waits : s.pending = events ++ rest) :
    (∃ sampled : List Accepted, sampled.map Accepted.host = issuers events ∧
      Host.Core.run core events.length s = .next (s.served sampled rest) ∧
      ∀ host, hostResponses (callsOf host events) (s.responsesOf host) =
        .ok ((s.served sampled rest).responsesOf host)) ∨
    ∃ f host, Host.Core.run core events.length s = .fault f ∧
      hostResponses (callsOf host events) (s.responsesOf host) = .error f := by
  induction events generalizing s with
  | nil =>
    have left : s.served [] rest = s := served_nil waits
    exact .inl ⟨[], rfl, congrArg Host.Outcome.next left.symm, fun host => left.symm ▸ rfl⟩
  | cons e events ih =>
    rw [List.length_cons]
    cases e with
    | reset inProgress =>
      rw [run_succ_of_step (step_reset inProgress waits)]
      exact ih (s := { s with pending := events ++ rest }) loaded answered rfl
    | request q =>
      cases resolved : resolveCall (s.responsesOf q.host) q.call with
      | error f =>
        refine .inr ⟨f, q.host, run_succ_of_step_fault (step_request_fault q waits resolved) _, ?_⟩
        rw [callsOf_request, if_pos rfl, hostResponses_cons_of_error _ resolved]
      | ok a =>
        rw [run_succ_of_step (step_request_specResponse loaded waits resolved)]
        have later := ih
          (s := (State.accept q.host a { s with pending := events ++ rest }).respond (specResponse a))
          loaded (by simp [answered]) rfl
        simp only [hostResponses_accept_respond answered resolved, accept_respond_served] at later
        refine later.imp_left fun ⟨sampled, hosts, run, receives⟩ => ?_
        exact ⟨⟨q.host, a⟩ :: sampled, congrArg (q.host :: ·) hosts, run, receives⟩

/-! ## Duties (R233) -/

/-- R70, R233: a well-formed word is one that is read. -/
theorem exists_decode_of_wellFormedCommand {cmd : Command} (wellFormed : wellFormedCommand cmd = true) :
    ∃ i, decode cmd = .ok i := by
  have inRow : ∃ row ∈ opcodeTable, cmd &&& row.mask = row.pattern := by
    simpa [wellFormedCommand, OpcodeRow.holdsWord] using wellFormed
  exact (exists_decode_iff cmd).2 ((exists_row_iff cmd).1 inRow)

/-- R233: entry values up to 4095 get no range error. -/
theorem isError_entryResponse_of_wellFormedEntry {make : Block → Key → Instr} {block key : Nat}
    (wellFormed : wellFormedEntry block key = true) :
    (entryResponse make block key).isError = false := by
  obtain ⟨blockFits, keyFits⟩ : block ≤ 4095 ∧ key ≤ 4095 := by simpa [wellFormedEntry] using wellFormed
  rw [entryResponse, if_neg keyFits.not_gt, if_neg blockFits.not_gt]
  rfl

/-- R207, R233: a dutiful transaction gets no error. -/
theorem isError_specResponse_of_dutiful {t : Transaction} (dutiful : t.dutiful = true) :
    (specResponse t).isError = false := by
  cases t with
  | command cmd =>
    obtain ⟨i, decoded⟩ := exists_decode_of_wellFormedCommand dutiful
    simp only [specResponse, decoded, Response.isError]
  | encryptBlock block key => exact isError_entryResponse_of_wellFormedEntry dutiful
  | decryptBlock block key => exact isError_entryResponse_of_wellFormedEntry dutiful

/-- R233: a host that keeps its duties, and has received no error, receives a response to each of its calls
and no error. -/
theorem hostResponses_of_dutifulCalls {calls : List Call} {received : List Response}
    (dutiful : dutifulCalls calls received = true) (noError : ∀ r ∈ received, r.isError = false) :
    ∃ answers, hostResponses calls received = .ok answers ∧ ∀ r ∈ answers, r.isError = false := by
  induction calls generalizing received with
  | nil => exact ⟨received, rfl, noError⟩
  | cons c calls ih =>
    obtain ⟨t, resolved, keeps, later⟩ := (dutifulCalls_cons calls).1 dutiful
    rw [hostResponses_cons_of_ok calls resolved]
    exact ih later <| List.forall_mem_append.2
      ⟨noError, List.forall_mem_singleton.2 (isError_specResponse_of_dutiful keeps)⟩

/-- A host that presents dutiful transactions as they stand keeps its duties. -/
theorem dutifulCalls_map_ofTransaction {issued : List Accepted} (received : List Response)
    (dutiful : ∀ x ∈ issued, x.transaction.dutiful = true) :
    dutifulCalls (issued.map (fun x => Call.ofTransaction x.transaction)) received = true := by
  induction issued generalizing received with
  | nil => rfl
  | cons x issued ih =>
    obtain ⟨first, others⟩ := List.forall_mem_cons.1 dutiful
    exact (dutifulCalls_cons _).2 ⟨_, resolveCall_ofTransaction _ _, first, ih _ others⟩

/-! ## The record of errors (R206) -/

/-- The record is empty exactly when no host has received an error. -/
theorem errorRecord_eq_nil_iff (s : State) :
    s.errorRecord = [] ↔ ∀ host, ∀ r ∈ s.responsesOf host, r.isError = false := by
  simp only [State.errorRecord, State.responsesOf, List.filter_eq_nil_iff, List.forall_mem_map,
    List.mem_filter, beq_iff_eq, Bool.not_eq_true]
  exact ⟨fun none _ x mem => none x mem.1, fun none x mem => none x.1.host x ⟨mem, rfl⟩⟩

/-! ## The statements -/

/-- Settles O52, by what a run can do: each clause is excluded in the case that is not its own. -/
theorem aRunGivesEachHostTheResponsesOfItsOwnCalls :
    Obligations.ARunGivesEachHostTheResponsesOfItsOwnCalls := by
  intro s events rest loaded answered waits
  obtain ⟨sampled, hosts, run, receives⟩ | ⟨f, host, run, stops⟩ :=
    run_completes_or_faults events loaded answered waits
  · refine ⟨iff_of_true ⟨_, run⟩ fun host => ⟨_, receives host⟩, fun t next => ?_, fun f fault => ?_⟩
    · cases run.symm.trans next
      exact ⟨sampled, hosts, rfl, receives⟩
    · cases run.symm.trans fault
  · refine ⟨iff_of_false (fun ⟨t, next⟩ => ?_) (fun receives => ?_), fun t next => ?_, fun f' fault => ?_⟩
    · cases run.symm.trans next
    · obtain ⟨answers, all⟩ := receives host
      cases stops.symm.trans all
    · cases run.symm.trans next
    · cases run.symm.trans fault
      exact ⟨host, stops⟩

/-- Settles O54: each dutiful host receives no error in the end, so the record stays empty. -/
theorem dutifulCallsWithResultNamesGetNoError : Obligations.DutifulCallsWithResultNamesGetNoError := by
  intro s inv clean dutiful
  choose answers receives noError using fun host =>
    hostResponses_of_dutifulCalls (dutiful host) ((errorRecord_eq_nil_iff s).1 clean host)
  obtain ⟨t, run, left⟩ := run_gives_hostResponses s.pending inv.constants inv.answered
    (List.append_nil _).symm receives
  exact ⟨t, run, (errorRecord_eq_nil_iff t).2 fun host => left host ▸ noError host⟩

/-- Settles O49, as the case of O54 in which every operand is a literal. -/
theorem hostsThatKeepTheirDutiesGetNoError : Obligations.HostsThatKeepTheirDutiesGetNoError := by
  intro s issued inv clean waits dutiful
  have safe := dutifulCallsWithResultNamesGetNoError s inv clean fun host => by
    rw [waits, callsOf_map_present]
    exact dutifulCalls_map_ofTransaction _ fun x mem => dutiful x (List.mem_filter.1 mem).1
  rwa [waits, List.length_map] at safe

/-- Settles O46, by induction over the transactions issued. -/
theorem aRunAnswersEveryTransactionInOrder : Obligations.ARunAnswersEveryTransactionInOrder :=
  fun _ issued _ => run_map_present issued

/-- Settles O2: a reset leaves the list of what is pending and changes nothing else, so the next step starts
from the state with no reset before the request. -/
theorem resetLosesTheResponseAndReissueGivesIt : Obligations.ResetLosesTheResponseAndReissueGivesIt :=
  fun _ _ inProgress _ _ head => ⟨_, step_reset inProgress head, rfl, rfl, rfl, rfl⟩

end Sys2Proof.Machine
end
